-- ==== Sys2Proof/Word.lean ====
section
/-! DEFINITION. The machine's word, and the two small alphabets its instructions are written over:
the addressing modes and the kinds of an argument slot.

A word of memory, of a register or of the datapath is an integer (00_scope.md R8, R20): Lean's
`Int`, under its own name throughout the model so that integer arithmetic reads and proves as such.
A finite `WORD_BITS` restricts which integers are representable and is checked where the spec checks
it (40_sequencer.md R120); it never changes the type, because nothing wraps (R8, R142). -/

namespace Sys2Proof

/-- The three addressing modes (30_encoding.md R81, R88). -/
inductive Mode where
  /-- digit 0: the argument word is an address -/
  | position
  /-- digit 1: the argument word is the value; illegal as a destination (R90) -/
  | immediate
  /-- digit 2: the argument word plus `rb` is an address -/
  | relative
deriving DecidableEq, Repr

/-- The kind of an argument slot, fixed by the operation and the slot's place (30_encoding.md R87). -/
inductive SlotKind where
  /-- the slot yields a value -/
  | src
  /-- the slot yields the address written -/
  | dst
deriving DecidableEq, Repr

end Sys2Proof
end

