-- ==== Sys2Proof/Machine/Codes.lean ====
section
/-! DEFINITION. The machine's fault codes and statuses, with their numbers. -/

namespace Sys2Proof.Machine

/-- The seven fatal conditions (60_exceptions.md R221). -/
inductive FaultCode where
  /-- the operation is none of 1 to 9 and 99 (R224) -/
  | unknownOpcode
  /-- a destination slot in immediate mode (R225) -/
  | invalidDestinationMode
  /-- a used slot's mode digit is 3 to 9 (R226) -/
  | invalidMode
  /-- a negative fetch, operand or destination address (R227) -/
  | negativeAddress
  /-- the fetched opcode word is negative (R228) -/
  | negativeOpcodeWord
  /-- a value not representable in a finite word (R222) -/
  | overflow
  /-- a write needs a new key in a full sparse region (R229) -/
  | capacityExceeded
deriving DecidableEq, Repr

/-- The 3-bit code of a fault (60_exceptions.md R221). -/
def FaultCode.code : FaultCode → BitVec 3
  | .unknownOpcode => 1
  | .invalidDestinationMode => 2
  | .invalidMode => 3
  | .negativeAddress => 4
  | .negativeOpcodeWord => 5
  | .overflow => 6
  | .capacityExceeded => 7

/-- The seven statuses (10_state.md R27, R28). -/
inductive Status where
  /-- constructed, not started -/
  | ready
  /-- may execute the instruction at `ip` -/
  | running
  /-- the instruction at `ip` is an input that found no value -/
  | awaitIn
  /-- the instruction at `ip` is an output the port could not accept -/
  | awaitOut
  /-- an output has committed and the host has not yet run the engine on -/
  | yielded
  /-- terminal: halted -/
  | halted
  /-- terminal: a fault was raised -/
  | faulted
deriving DecidableEq, Repr

/-- The 3-bit encoding of the status register (10_state.md R27). -/
def Status.code : Status → BitVec 3
  | .ready => 0
  | .running => 1
  | .awaitIn => 2
  | .awaitOut => 3
  | .yielded => 4
  | .halted => 5
  | .faulted => 6

/-- The status a 3-bit value stands for; the value 7 is never held (10_state.md R27). -/
def Status.ofCode (b : BitVec 3) : Option Status :=
  match b.toNat with
  | 0 => some .ready
  | 1 => some .running
  | 2 => some .awaitIn
  | 3 => some .awaitOut
  | 4 => some .yielded
  | 5 => some .halted
  | 6 => some .faulted
  | _ => none

end Sys2Proof.Machine
end

