-- ==== Sys2Proof/Syntax.lean ====
section
/-! DEFINITION. The instructions, one constructor per row of spec/opcode_table.json. -/

namespace Sys2Proof

/-- A decoded instruction: the operation and the mode of each argument slot it uses, in slot order
(30_encoding.md R86, R98). The argument words are no part of it: they are read from memory at the
time each is used (40_sequencer.md R111, R116; 10_state.md R37). -/
inductive Instr where
  /-- op 1, SRC SRC DST (41_arithmetic.md R140) -/
  | add (a b c : Mode)
  /-- op 2, SRC SRC DST (41_arithmetic.md R141) -/
  | mul (a b c : Mode)
  /-- op 3, DST (42_io.md R151) -/
  | inp (a : Mode)
  /-- op 4, SRC (42_io.md R154) -/
  | out (a : Mode)
  /-- op 5, SRC condition, SRC target (43_jumps.md R180) -/
  | jt (a b : Mode)
  /-- op 6, SRC condition, SRC target (43_jumps.md R181) -/
  | jf (a b : Mode)
  /-- op 7, SRC SRC DST (44_compare.md R190) -/
  | lt (a b c : Mode)
  /-- op 8, SRC SRC DST (44_compare.md R191) -/
  | eq (a b c : Mode)
  /-- op 9, SRC (45_relative_base.md R200) -/
  | arb (a : Mode)
  /-- op 99, no slot (46_halt.md R210) -/
  | halt
deriving DecidableEq, Repr

end Sys2Proof
end

