-- ==== Sys2Proof/WellFormed.lean ====
section
/-! DEFINITION. Which instructions an opcode word can encode: a destination slot is never in
immediate mode (30_encoding.md R90). -/

namespace Sys2Proof

/-- The modes legal in a destination slot: position and relative (30_encoding.md R88, R90). -/
def Mode.legalDst : Mode → Bool
  | .position => true
  | .immediate => false
  | .relative => true

/-- The check on an instruction: every destination slot has a legal mode. -/
def Instr.wf : Instr → Bool
  | .add _ _ c => c.legalDst
  | .mul _ _ c => c.legalDst
  | .inp a => a.legalDst
  | .out _ => true
  | .jt _ _ => true
  | .jf _ _ => true
  | .lt _ _ c => c.legalDst
  | .eq _ _ c => c.legalDst
  | .arb _ => true
  | .halt => true

end Sys2Proof
end

