-- ==== Sys2Proof/Decode.lean ====
section
/-! DEFINITION. The decoder, a total function of the opcode word alone (30_encoding.md R98), the
operation table, the encoder, and the assembler's words and abbreviations (R96, R99, R100). -/

namespace Sys2Proof

open Sys2Proof.Machine (FaultCode)

/-- The k-th least significant decimal digit of a non-negative integer, from k = 0; 0 above the
most significant written digit (00_scope.md R9). -/
def digit (w k : Nat) : Nat := w / 10 ^ k % 10

/-- The mode a mode digit stands for; 3 to 9 stand for none (30_encoding.md R88, R89). -/
def modeOfDigit : Nat → Option Mode
  | 0 => some .position
  | 1 => some .immediate
  | 2 => some .relative
  | _ => none

/-- The mode digit of a mode (30_encoding.md R81). -/
def Mode.digit : Mode → Nat
  | .position => 0
  | .immediate => 1
  | .relative => 2

/-- One used slot of the decoder's loop: its mode digit 3 to 9 is InvalidMode, a destination with
digit 1 is InvalidDestinationMode (30_encoding.md R89, R90, R98). -/
def decodeSlot (kind : SlotKind) (d : Nat) : Except FaultCode Mode :=
  match modeOfDigit d, kind with
  | none, _ => .error .invalidMode
  | some .immediate, .dst => .error .invalidDestinationMode
  | some m, _ => .ok m

/-- The used slot `i` of the opcode word `w`, whose mode digit is digit(w, i + 2) (30_encoding.md R85). -/
def decodeSlotAt (w : Nat) (kind : SlotKind) (i : Nat) : Except FaultCode Mode :=
  decodeSlot kind (digit w (i + 2))

/-- The modes of a one-slot operation. -/
def decode1 (w : Nat) (k : SlotKind) (f : Mode → Instr) : Except FaultCode Instr := do
  let a ← decodeSlotAt w k 0
  return f a

/-- The modes of a two-slot operation, both slots SRC, in slot order. -/
def decode2 (w : Nat) (f : Mode → Mode → Instr) : Except FaultCode Instr := do
  let a ← decodeSlotAt w .src 0
  let b ← decodeSlotAt w .src 1
  return f a b

/-- The modes of a three-slot operation, SRC SRC DST, in slot order. -/
def decode3 (w : Nat) (f : Mode → Mode → Mode → Instr) : Except FaultCode Instr := do
  let a ← decodeSlotAt w .src 0
  let b ← decodeSlotAt w .src 1
  let c ← decodeSlotAt w .dst 2
  return f a b c

/-- The decoder on a non-negative opcode word: the operation is `w mod 100` (30_encoding.md R84),
its slots are those of R86, and every other operation is unknown (R92). -/
def decodeOperation (w : Nat) : Except FaultCode Instr :=
  match w % 100 with
  | 1 => decode3 w .add
  | 2 => decode3 w .mul
  | 3 => decode1 w .dst .inp
  | 4 => decode1 w .src .out
  | 5 => decode2 w .jt
  | 6 => decode2 w .jf
  | 7 => decode3 w .lt
  | 8 => decode3 w .eq
  | 9 => decode1 w .src .arb
  | 99 => .ok .halt
  | _ => .error .unknownOpcode

/-- `Decode(w)` (30_encoding.md R98): the sign is checked before any field is extracted (R83). -/
def decode (w : Int) : Except FaultCode Instr :=
  if w < 0 then .error .negativeOpcodeWord else decodeOperation w.toNat

/-- The operation code of an instruction (30_encoding.md R86). -/
def Instr.opcode : Instr → Nat
  | .add _ _ _ => 1
  | .mul _ _ _ => 2
  | .inp _ => 3
  | .out _ => 4
  | .jt _ _ => 5
  | .jf _ _ => 6
  | .lt _ _ _ => 7
  | .eq _ _ _ => 8
  | .arb _ => 9
  | .halt => 99

/-- The slot modes of an instruction, in slot order: the decoder's output `modes` (30_encoding.md R98). -/
def Instr.modes : Instr → List Mode
  | .add a b c => [a, b, c]
  | .mul a b c => [a, b, c]
  | .inp a => [a]
  | .out a => [a]
  | .jt a b => [a, b]
  | .jf a b => [a, b]
  | .lt a b c => [a, b, c]
  | .eq a b c => [a, b, c]
  | .arb a => [a]
  | .halt => []

/-- The slot kinds of each operation code, and none for an unknown operation: the table of
30_encoding.md R86 read by its operation column. -/
def slotKinds : Nat → Option (List SlotKind)
  | 1 => some [.src, .src, .dst]
  | 2 => some [.src, .src, .dst]
  | 3 => some [.dst]
  | 4 => some [.src]
  | 5 => some [.src, .src]
  | 6 => some [.src, .src]
  | 7 => some [.src, .src, .dst]
  | 8 => some [.src, .src, .dst]
  | 9 => some [.src]
  | 99 => some []
  | _ => none

/-- The slot kinds of an instruction: the decoder's output `kinds` (30_encoding.md R98). -/
def Instr.kinds (i : Instr) : List SlotKind := (slotKinds i.opcode).getD []

/-- The number of argument slots (30_encoding.md R86). -/
def Instr.arity (i : Instr) : Nat := i.kinds.length

/-- The number of words an instruction occupies, `1 + arity` (30_encoding.md R94). -/
def Instr.width (i : Instr) : Nat := 1 + i.arity

/-- The mode digits of a list of modes as a number, slot 0 least significant (30_encoding.md R82). -/
def flagsOf : List Mode → Nat
  | [] => 0
  | m :: ms => m.digit + 10 * flagsOf ms

/-- The canonical opcode word `op + 100*m0 + 1000*m1 + 10000*m2`, the shortest that decodes to the
instruction (30_encoding.md R96). -/
def encode (i : Instr) : Int := ((i.opcode + 100 * flagsOf i.modes : Nat) : Int)

/-- One assembled line: the canonical opcode word and then the argument words, used as they are
(30_encoding.md R95, R99). -/
def assemble (i : Instr) (args : List Int) : List Int := encode i :: args

/-- `JMP t` is `JT #1, t` (30_encoding.md R100). -/
def asmJmp (m : Mode) (t : Int) : List Int := assemble (.jt .immediate m) [1, t]

/-- `MOV s, d` is `ADD s, #0, d` (30_encoding.md R100). -/
def asmMov (ms : Mode) (s : Int) (md : Mode) (d : Int) : List Int :=
  assemble (.add ms .immediate md) [s, 0, d]

/-- `DATA v` emits the single word `v` (30_encoding.md R100). -/
def asmData (v : Int) : List Int := [v]

/-- The instruction of the opcode table's word `w`. The table's match and mask are decimal
(30_encoding.md R97) and a word has no bit width (00_scope.md R8), so the whole number `w` is the
opcode word whatever the row's number of bits; the argument words, all 0, are not decoded (R98).
DEDUCED, safe (log entry 15). -/
def decodeTableWord : Nat → Nat → Option Instr
  | _nbits, w => (decode (w : Int)).toOption

end Sys2Proof
end

