-- ==== Sys2Proof/Config.lean ====
section
/-! DEFINITION. What is fixed for one engine: the configuration bit of its construction and the
implementation parameters (00_scope.md R7; 10_state.md R33). The spec leaves no result of an
instruction open, so there is no free value here. -/

namespace Sys2Proof

/-- The implementation parameters of 00_scope.md R7. `none` is the spec's UNBOUNDED. -/
structure Params where
  /-- `WORD_BITS`: `none`, or a width of at least 64 -/
  wordBits : Option Nat
  /-- `SPARSE_CAPACITY`: `none`, or how many keys the sparse region can hold (20_memory.md R67) -/
  sparseCapacity : Option Nat
deriving DecidableEq, Repr

/-- The construction argument `cfg` (10_state.md R33). -/
structure Cfg where
  /-- 1: stop in YIELDED after each output; 0: go on at once -/
  yieldOnOutput : Bool
deriving DecidableEq, Repr

/-- The defaults of 00_scope.md R7: both parameters UNBOUNDED. -/
def Config.defaultParams : Params := { wordBits := none, sparseCapacity := none }

/-- The delivery mode of `State.reset`: continue after an output.
DESIGN CHOICE, unsafe (log entry 3): the spec makes it an argument of the construction. -/
def Config.resetCfg : Cfg := { yieldOnOutput := false }

end Sys2Proof
end

