-- ==== Sys2Proof/Machine/State.lean ====
section
/-! DEFINITION. The state of one engine as plain data (10_state.md R20), the port signals beside it
(42_io.md R150), the state after reset, and the reasons a host operation can stop. -/

namespace Sys2Proof.Machine

/-- The engine's memory (20_memory.md R50 to R54).
`cells` is the logical view `M`: (address, word) pairs with the addresses strictly rising and no
word 0, because an address that is not listed reads 0 (R52, R56). The word is the addressable unit
and no byte order may be exposed (R57, R59), so a cell holds a word and not a byte
(DEDUCED, safe, log entry 1).
`sparse` is the set of keys of the sparse map `S` (R53), strictly rising; a finite SPARSE_CAPACITY
counts them (R67), and a key written with 0 stays a key (DEDUCED, safe, log entry 11). -/
structure Memory where
  cells : List (Nat × Int)
  sparse : List Nat
deriving DecidableEq, Repr

/-- The fault record (10_state.md R30): `word` is none when the fetch itself faulted. -/
structure FaultRecord where
  code : FaultCode
  ip : Int
  word : Option Int
deriving DecidableEq, Repr

/-- The two ports (42_io.md R150) with what stands behind them. `in_valid` is "inQueue is not
empty" and `in_data` is its head (60_exceptions.md R245). The queues and the held signals are the
model's picture of the environment (DESIGN CHOICE, log entries 5, 6, 7). -/
structure Ports where
  /-- values waiting at the input port, oldest first -/
  inQueue : List Int
  /-- `in_closed`: no further value will come, and `provide` presents none; never read by the
  sequencer (R159) -/
  inClosed : Bool
  /-- `out_ready`: the consumer can accept a value now -/
  outReady : Bool
  /-- values put at the output port and not yet drained by the consumer, oldest first -/
  outQueue : List Int
  /-- `in_take` of the latest step -/
  inTake : Bool
  /-- `out_put` of the latest step -/
  outPut : Bool
deriving DecidableEq, Repr

/-- The state of one engine: the record of 10_state.md R20, the implementation parameters it was
built with (00_scope.md R7; DESIGN CHOICE, safe, log entry 2) and its ports. -/
structure State where
  /-- instruction pointer (R22, R23) -/
  ip : Int
  /-- relative base (R24, R25) -/
  rb : Int
  /-- memory `M` (R26) -/
  mem : Memory
  /-- `N`, the length of the program image (R34) -/
  n : Nat
  /-- status register (R27) -/
  status : Status
  /-- fault record, none until a fault is raised (R30) -/
  fault : Option FaultRecord
  /-- value of the most recent committed output (R32) -/
  outData : Option Int
  /-- configuration, fixed at construction (R33) -/
  cfg : Cfg
  /-- WORD_BITS and SPARSE_CAPACITY, fixed -/
  params : Params
  /-- the input and output ports (42_io.md R150) -/
  ports : Ports
deriving DecidableEq, Repr

/-- Where the model stops with a fault of its own. A fatal condition of the machine is none of
these: it is a next state with status FAULTED (60_exceptions.md R230). -/
inductive Fault where
  /-- Raised by the host operation `readOutData` when no output has committed: the spec asks the
  model to fault this read rather than invent a value (10_state.md R32). Safe. No step raises it. -/
  | noOutputData
deriving DecidableEq, Repr

/-- What the model refuses by name. No step and no instruction is refused; these are host moves
the spec does not give. -/
inductive Refusal where
  /-- Raised by an arm of `exec` whose instruction has no meaning yet; no arm does. Safe. -/
  | notModelled (mnemonic : String)
  /-- Raised by `poke` in RUNNING, AWAIT_IN and AWAIT_OUT: "the host has no such move"
  (20_memory.md R61; 93 U14). Safe. -/
  | pokeWhileRunning
  /-- Raised by `poke` of a value outside a finite word (DESIGN CHOICE, log entry 12). Safe. -/
  | pokeNotRepresentable
  /-- Raised by `poke` where a new sparse key is needed and the region is full
  (20_memory.md R67; DESIGN CHOICE, log entry 12). Safe. -/
  | pokeCapacity
  /-- Raised by `newEngine` for an image word outside a finite word (70_reset_and_hazards.md R260). Safe. -/
  | imageNotRepresentable
  /-- Raised by `newEngine` for a finite WORD_BITS below 64 (00_scope.md R7). Safe. -/
  | wordBitsBelow64
  /-- Raised by `provide` for an input value outside a finite word: the port's data is one word wide
  (42_io.md R150; DESIGN CHOICE, log entry 13). Safe. -/
  | inputNotRepresentable
  /-- Raised by `provide` at a closed input, which never receives another value
  (42_io.md R150, R159; DEDUCED, log entry 19). Safe. -/
  | inputClosed
deriving DecidableEq, Repr

/-- The engine right after construction from the empty image with the default parameters
(10_state.md R38; 70_reset_and_hazards.md R260; 92 D24). The empty image, the delivery mode and the
port signals are the model's choice (DESIGN CHOICE, log entries 3, 5, 6, 7). -/
def State.reset : State where
  ip := 0
  rb := 0
  mem := { cells := [], sparse := [] }
  n := 0
  status := .ready
  fault := none
  outData := none
  cfg := Config.resetCfg
  params := Config.defaultParams
  ports :=
    { inQueue := [], inClosed := false, outReady := true, outQueue := [], inTake := false, outPut := false }

end Sys2Proof.Machine
end

