-- ==== Sys2Proof/Machine/Flags.lean ====
section
/-! DEFINITION. The machine has no condition codes (10_state.md R36). What stands in their place:
the derived flag `terminated`, the words a comparison writes, the zero test of the jumps, and the
range check of a finite word. -/

namespace Sys2Proof.Machine

/-- The only flag of the machine, derived from the status (10_state.md R29). -/
def terminated (s : State) : Bool :=
  match s.status with
  | .halted => true
  | .faulted => true
  | _ => false

/-- The word a comparison writes: 1 when it holds, 0 when not (44_compare.md R190, R191). -/
def truthWord (b : Bool) : Int := if b then 1 else 0

/-- The signed comparator `v0 < v1` (44_compare.md R190). -/
def lessThan (v0 v1 : Int) : Bool := decide (v0 < v1)

/-- The equality comparator `v0 = v1` (44_compare.md R191). -/
def equalTo (v0 v1 : Int) : Bool := decide (v0 = v1)

/-- The zero test of the jumps (43_jumps.md R180, R181). -/
def isZero (v : Int) : Bool := decide (v = 0)

/-- Whether a value is a word: every integer when WORD_BITS is UNBOUNDED, and
`-2^(n-1) <= v <= 2^(n-1) - 1` when it is n (00_scope.md R8). -/
def representable (p : Params) (v : Int) : Bool :=
  match p.wordBits with
  | none => true
  | some k => decide (-((2 ^ (k - 1) : Nat) : Int) ≤ v ∧ v ≤ ((2 ^ (k - 1) : Nat) : Int) - 1)

end Sys2Proof.Machine
end

