-- ==== Sys2Proof/Machine/Ops.lean ====
section
/-! DEFINITION. The named operations: reading and writing memory, the checks, the commit, the two
suspensions, taking a fault, the fetch, and when a step is enabled. A fault is never returned from:
the machine has no return (60_exceptions.md R234). -/

namespace Sys2Proof.Machine

/-! ### Memory -/

/-- The word listed for an address, or 0, what an unlisted address reads as (20_memory.md R52, R56). -/
def lookup : List (Nat × Int) → Nat → Int
  | [], _ => 0
  | (b, w) :: t, a => if b = a then w else lookup t a

/-- Drops the entry of an address. -/
def dropCell (cells : List (Nat × Int)) (a : Nat) : List (Nat × Int) :=
  cells.filter (fun c => decide (c.1 ≠ a))

/-- Puts an entry at its place in the rising order. -/
def putCell : List (Nat × Int) → Nat → Int → List (Nat × Int)
  | [], a, v => [(a, v)]
  | (b, w) :: t, a, v => if a < b then (a, v) :: (b, w) :: t else (b, w) :: putCell t a v

/-- Puts a key at its place in the rising order, once. -/
def putKey : List Nat → Nat → List Nat
  | [], a => [a]
  | b :: t, a => if a = b then b :: t else if a < b then a :: b :: t else b :: putKey t a

/-- The logical view `M[a]` (20_memory.md R52). -/
def Memory.read (m : Memory) (a : Nat) : Int := lookup m.cells a

/-- `MemWrite` at a non-negative address with the image length `n`: the dense region below `n`, and
above it the sparse map, whose key is inserted if absent (20_memory.md R53). Writing 0 lists
nothing, which is what an unlisted address reads as. -/
def Memory.write (m : Memory) (n a : Nat) (v : Int) : Memory where
  cells := if v = 0 then dropCell m.cells a else putCell (dropCell m.cells a) a v
  sparse := if a < n then m.sparse else putKey m.sparse a

/-- The cells of a program image, element i at address i, counting from `a` (30_encoding.md R101). -/
def imageCells : Nat → List Int → List (Nat × Int)
  | _, [] => []
  | a, v :: t => if v = 0 then imageCells (a + 1) t else (a, v) :: imageCells (a + 1) t

/-- The memory right after construction: the image, and an empty sparse region (10_state.md R38). -/
def Memory.ofImage (image : List Int) : Memory where
  cells := imageCells 0 image
  sparse := []

/-- The canonical form of the cells: addresses strictly rising, no word 0. -/
def cellsWf : List (Nat × Int) → Bool
  | [] => true
  | (a, w) :: t => decide (w ≠ 0) && t.all (fun c => decide (a < c.1)) && cellsWf t

/-- The keys of the sparse map, strictly rising. -/
def keysWf : List Nat → Bool
  | [] => true
  | a :: t => t.all (fun b => decide (a < b)) && keysWf t

/-- The canonical form of the memory, so that equal memories are equal data. -/
def Memory.wf (m : Memory) : Bool := cellsWf m.cells && keysWf m.sparse

/-! ### Checks. Each answers the value it checked, or the fault the spec raises. -/

/-- `CheckRange(v)` (40_sequencer.md R120). -/
def checkRange (s : State) (v : Int) : Except FaultCode Int :=
  if representable s.params v then .ok v else .error .overflow

/-- The address check of every access: negative raises NegativeAddress (20_memory.md R55). -/
def checkAddress (a : Int) : Except FaultCode Nat :=
  if a < 0 then .error .negativeAddress else .ok a.toNat

/-- `MemRead(a, 1)` (20_memory.md R52). -/
def memRead (s : State) (a : Int) : Except FaultCode Int := do
  let k ← checkAddress a
  return s.mem.read k

/-- Whether a write to `a` would need a new key in a full sparse region (20_memory.md R67). -/
def sparseFull (s : State) (a : Nat) : Bool :=
  match s.params.sparseCapacity with
  | none => false
  | some k => decide (s.n ≤ a) && !(s.mem.sparse.contains a) && decide (k ≤ s.mem.sparse.length)

/-- `CheckCapacity(a)` (00_scope.md R11; 20_memory.md R67). -/
def checkCapacity (s : State) (a : Nat) : Except FaultCode Unit :=
  if sparseFull s a then .error .capacityExceeded else .ok ()

/-! ### Ports -/

/-- `in_data` when `in_valid = 1`, none when `in_valid = 0` (42_io.md R150). -/
def inData (s : State) : Option Int := s.ports.inQueue.head?

/-- `in_valid` (42_io.md R150). -/
def inValid (s : State) : Bool := (inData s).isSome

/-- The ports with no pulse given in this step (42_io.md R150). -/
def Ports.quiet (p : Ports) : Ports := { p with inTake := false, outPut := false }

/-- The `in_take` pulse: the provider removes the value that was taken (42_io.md R150, R153). -/
def Ports.take (p : Ports) : Ports := { p with inQueue := p.inQueue.tail, inTake := true, outPut := false }

/-- The `out_put` pulse with the value put (42_io.md R150, R155). -/
def Ports.put (p : Ports) (v : Int) : Ports :=
  { p with outQueue := p.outQueue ++ [v], inTake := false, outPut := true }

/-! ### What a step can do to the state -/

/-- The step that is not taken: no pulse is given and every other piece of state survives
(40_sequencer.md R110; 60_exceptions.md R242; DESIGN CHOICE, safe, log entry 4). -/
def idle (s : State) : State := { s with ports := s.ports.quiet }

/-- Commit of an instruction that gives no pulse: `ip <- v; status <- RUNNING`
(40_sequencer.md R117 to R119). -/
def commit (s : State) (ip : Int) : State :=
  { s with ip := ip, status := .running, ports := s.ports.quiet }

/-- Commit with the one memory write (40_sequencer.md R117). -/
def commitWrite (s : State) (a : Nat) (v ip : Int) : State :=
  { s with mem := s.mem.write s.n a v, ip := ip, status := .running, ports := s.ports.quiet }

/-- Commit with the new relative base (45_relative_base.md R200). -/
def commitBase (s : State) (rb ip : Int) : State :=
  { s with rb := rb, ip := ip, status := .running, ports := s.ports.quiet }

/-- Commit of an input: the write of the value taken and the `in_take` pulse (42_io.md R151). -/
def commitInput (s : State) (a : Nat) (v ip : Int) : State :=
  { s with mem := s.mem.write s.n a v, ip := ip, status := .running, ports := s.ports.take }

/-- The status after a committed output (40_sequencer.md R119). -/
def statusAfterOutput (s : State) : Status := if s.cfg.yieldOnOutput then .yielded else .running

/-- Commit of an output: `out_data`, the `out_put` pulse and the status (42_io.md R154, R155). -/
def commitOutput (s : State) (v ip : Int) : State :=
  { s with ip := ip, status := statusAfterOutput s, outData := some v, ports := s.ports.put v }

/-- Commit of a halt: only the status (46_halt.md R210). -/
def commitHalt (s : State) : State := { s with status := .halted, ports := s.ports.quiet }

/-- `suspend S`: only the status, and no pulse (00_scope.md R12). -/
def suspend (s : State) (st : Status) : State := { s with status := st, ports := s.ports.quiet }

/-- The opcode word of the instruction at `ip`, none at a negative `ip` (40_sequencer.md R112). In a
step this is the word the step fetched, since nothing is committed before a fault is raised
(DEDUCED, safe, log entry 9). -/
def opcodeWord (s : State) : Option Int := (memRead s s.ip).toOption

/-- Fault entry (60_exceptions.md R230): `status <- FAULTED`, `fault <- (code, ip, word)`, no pulse,
and nothing else changes. -/
def raise (s : State) (c : FaultCode) : State :=
  { s with
    status := .faulted
    fault := some { code := c, ip := s.ip, word := opcodeWord s }
    ports := s.ports.quiet }

/-- The end of an instruction's checks: the state it commits or suspends to, or the first fault it
met, which is taken (60_exceptions.md R230, R235). -/
def settle (s : State) : Except FaultCode State → Host.Outcome State Fault Refusal
  | .ok t => .next t
  | .error c => .next (raise s c)

/-! ### The sequencer's first two points -/

/-- `Enabled(e)` (40_sequencer.md R110). -/
def enabled (s : State) : Bool :=
  match s.status with
  | .running => true
  | .awaitIn => inValid s
  | .awaitOut => s.ports.outReady
  | .ready => false
  | .yielded => false
  | .halted => false
  | .faulted => false

/-- The fetch of the opcode word (40_sequencer.md R112). -/
def fetch (s : State) : Except FaultCode Int := memRead s s.ip

end Sys2Proof.Machine
end

