-- ==== Sys2Proof/Machine/Operands.lean ====
section
/-! DEFINITION. The operand forms (30_encoding.md R88): the value of a source slot and the address
of a destination slot. Each argument word is read at the time it is used (40_sequencer.md R116). -/

namespace Sys2Proof.Machine

/-- The argument word of slot `i`, read at `ip + 1 + i` after that address's range check
(40_sequencer.md R114, R115, R120). -/
def argWord (s : State) (i : Nat) : Except FaultCode Int := do
  let p ← checkRange s (s.ip + 1 + i)
  memRead s p

/-- `Value(i)`, the value of a SRC slot (40_sequencer.md R114). -/
def value (s : State) (i : Nat) (m : Mode) : Except FaultCode Int := do
  let a ← argWord s i
  match m with
  | .immediate => return a
  | .position => memRead s a
  | .relative => do
    let ea ← checkRange s (a + s.rb)
    memRead s ea

/-- `Dest(i)`, the address of a DST slot (40_sequencer.md R115). An immediate destination is no
instruction the decoder gives; should one be executed, it raises the same fault
(60_exceptions.md R225; DESIGN CHOICE, safe, log entry 10). -/
def dest (s : State) (i : Nat) (m : Mode) : Except FaultCode Nat := do
  let a ← argWord s i
  match m with
  | .immediate => .error .invalidDestinationMode
  | .position => checkAddress a
  | .relative => do
    let ea ← checkRange s (a + s.rb)
    checkAddress ea

end Sys2Proof.Machine
end

