-- ==== Sys2Proof/Machine/Arithmetic.lean ====
section
/-! DEFINITION. add and mul (41_arithmetic.md). -/

namespace Sys2Proof.Machine

/-- The shape the two share: both sources, the destination, the exact result, its range check, the
next `ip`, the capacity check, the commit (41_arithmetic.md R140, R141; 60_exceptions.md R236). -/
def arithmetic (f : Int → Int → Int) (a b c : Mode) (s : State) : Except FaultCode State := do
  let v0 ← value s 0 a
  let v1 ← value s 1 b
  let ea ← dest s 2 c
  let r ← checkRange s (f v0 v1)
  let next ← checkRange s (s.ip + 4)
  checkCapacity s ea
  return commitWrite s ea r next

/-- ADD (41_arithmetic.md R140): the exact sum. -/
def execAdd (a b c : Mode) (s : State) : Host.Outcome State Fault Refusal :=
  settle s (arithmetic (fun v0 v1 => v0 + v1) a b c s)

/-- MUL (41_arithmetic.md R141): the exact product. -/
def execMul (a b c : Mode) (s : State) : Host.Outcome State Fault Refusal :=
  settle s (arithmetic (fun v0 v1 => v0 * v1) a b c s)

end Sys2Proof.Machine
end

