-- ==== Sys2Proof/Machine/Compare.lean ====
section
/-! DEFINITION. less-than and equals (44_compare.md). -/

namespace Sys2Proof.Machine

/-- The shape the two share: both sources, the destination, the next `ip`, the capacity check, the
commit of the word 1 or 0 (44_compare.md R190, R191). A truth word needs no range check
(40_sequencer.md R120). -/
def comparison (f : Int → Int → Bool) (a b c : Mode) (s : State) : Except FaultCode State := do
  let v0 ← value s 0 a
  let v1 ← value s 1 b
  let ea ← dest s 2 c
  let next ← checkRange s (s.ip + 4)
  checkCapacity s ea
  return commitWrite s ea (truthWord (f v0 v1)) next

/-- LT (44_compare.md R190): signed less-than. -/
def execLt (a b c : Mode) (s : State) : Host.Outcome State Fault Refusal :=
  settle s (comparison lessThan a b c s)

/-- EQ (44_compare.md R191): exact equality. -/
def execEq (a b c : Mode) (s : State) : Host.Outcome State Fault Refusal :=
  settle s (comparison equalTo a b c s)

end Sys2Proof.Machine
end

