-- ==== Sys2Proof/Machine/Halt.lean ====
section
/-! DEFINITION. halt (46_halt.md). -/

namespace Sys2Proof.Machine

/-- HALT (46_halt.md R210): only the status changes; `ip` stays at the halt. -/
def execHalt (s : State) : Host.Outcome State Fault Refusal :=
  .next (commitHalt s)

end Sys2Proof.Machine
end

