-- ==== Sys2Proof/Machine/Io.lean ====
section
/-! DEFINITION. input and output (42_io.md). The port is examined last, so that no fault takes an
input value (R151; 60_exceptions.md R236 steps 8 and 9). -/

namespace Sys2Proof.Machine

/-- IN (42_io.md R151): the value at the port is written and taken; with none available the engine
suspends in AWAIT_IN with nothing committed (R152). -/
def execIn (a : Mode) (s : State) : Host.Outcome State Fault Refusal :=
  settle s (do
    let ea ← dest s 0 a
    let next ← checkRange s (s.ip + 2)
    checkCapacity s ea
    match inData s with
    | none => return suspend s .awaitIn
    | some v => return commitInput s ea v next)

/-- OUT (42_io.md R154): the value is put at the port; when the port cannot accept it the engine
suspends in AWAIT_OUT with nothing committed (R156). -/
def execOut (a : Mode) (s : State) : Host.Outcome State Fault Refusal :=
  settle s (do
    let v0 ← value s 0 a
    let next ← checkRange s (s.ip + 2)
    if s.ports.outReady then return commitOutput s v0 next else return suspend s .awaitOut)

end Sys2Proof.Machine
end

