-- ==== Sys2Proof/Machine/Jumps.lean ====
section
/-! DEFINITION. jump-if-true and jump-if-false (43_jumps.md). -/

namespace Sys2Proof.Machine

/-- The shape the two share: both operands are resolved whether or not the jump is taken, a taken
jump writes the target itself to `ip`, and only a jump not taken checks `ip + 3`
(43_jumps.md R180 to R182). -/
def jump (taken : Int → Bool) (a b : Mode) (s : State) : Except FaultCode State := do
  let c ← value s 0 a
  let t ← value s 1 b
  if taken c then return commit s t
  else
    let next ← checkRange s (s.ip + 3)
    return commit s next

/-- JT (43_jumps.md R180): taken when the condition is not 0. -/
def execJt (a b : Mode) (s : State) : Host.Outcome State Fault Refusal :=
  settle s (jump (fun c => !isZero c) a b s)

/-- JF (43_jumps.md R181): taken when the condition is 0. -/
def execJf (a b : Mode) (s : State) : Host.Outcome State Fault Refusal :=
  settle s (jump (fun c => isZero c) a b s)

end Sys2Proof.Machine
end

