-- ==== Sys2Proof/Machine/RelativeBase.lean ====
section
/-! DEFINITION. adjust-relative-base (45_relative_base.md). -/

namespace Sys2Proof.Machine

/-- ARB (45_relative_base.md R200): the value is added to `rb`; a relative slot is resolved with
the old `rb`. -/
def execArb (a : Mode) (s : State) : Host.Outcome State Fault Refusal :=
  settle s (do
    let v0 ← value s 0 a
    let r ← checkRange s (s.rb + v0)
    let next ← checkRange s (s.ip + 2)
    return commitBase s r next)

end Sys2Proof.Machine
end

