-- ==== Sys2Proof/Machine/Step.lean ====
section
/-! DEFINITION. One step of the sequencer (40_sequencer.md R110, R111). -/

namespace Sys2Proof.Machine

/-- One step: where none is enabled the engine stays as it is (R110; DESIGN CHOICE, log entry 4);
otherwise fetch, decode, and the instruction's own rule, the first fault met being taken (R111 to
R113). -/
def step (s : State) : Host.Outcome State Fault Refusal :=
  if enabled s then
    match fetch s with
    | .error c => .next (raise s c)
    | .ok w =>
      match decode w with
      | .error c => .next (raise s c)
      | .ok i => exec i s
  else .next (idle s)

/-- The state with the opcode word `w` and argument words 0 placed where the next fetch reads, and
RUNNING, as after host pokes and the run command (20_memory.md R61; 40_sequencer.md R125). A
negative `ip`, from which nothing can be fetched, is set to 0. Log entry 3 says how a program comes
to run; log entry 15 how `w` is read. -/
def State.withFetchWord : State → Nat → Nat → State
  | s, _nbits, w =>
    let a := s.ip.toNat
    let m0 := s.mem.write s.n a (w : Int)
    let m1 := m0.write s.n (a + 1) 0
    let m2 := m1.write s.n (a + 2) 0
    let m3 := m2.write s.n (a + 3) 0
    { s with ip := (a : Int), mem := m3, status := .running }

end Sys2Proof.Machine
end

