-- ==== Sys2Proof/Machine/HostOps.lean ====
section
/-! DEFINITION. What the host and the environment can do between steps (20_memory.md R75): the
construction, the run command, the boundary operation run_until_output_or_halt, peek, poke, reading
out_data, and the moves of the input provider and the output consumer. -/

namespace Sys2Proof.Machine

/-- Whether the parameters are ones the spec admits: a finite WORD_BITS is at least 64 (00_scope.md R7). -/
def paramsOk (p : Params) : Bool :=
  match p.wordBits with
  | none => true
  | some k => decide (64 ≤ k)

/-- `new(image, cfg)` for the given parameters (70_reset_and_hazards.md R260): every piece of state at
its reset value (10_state.md R38), nothing started, and an image word that is not representable
refused. -/
def newEngine (p : Params) (c : Cfg) (image : List Int) : Host.Outcome State Fault Refusal :=
  if !paramsOk p then .refused .wordBitsBelow64
  else if image.all (representable p) then
    .next { State.reset with mem := Memory.ofImage image, n := image.length, cfg := c, params := p }
  else .refused .imageNotRepresentable

/-- The run command (40_sequencer.md R125). -/
def runCommand (s : State) : State :=
  match s.status with
  | .ready => { s with status := .running }
  | .yielded => { s with status := .running }
  | _ => s

/-- The results of run_until_output_or_halt (40_sequencer.md R126; 90_conflicts.md C3). -/
inductive RunResult where
  | outputProduced (v : Int)
  | halted
  | faulted (r : FaultRecord)
  | awaitingInput
  | awaitingOutput
deriving DecidableEq, Repr

/-- The result a stopped engine reports (40_sequencer.md R126); none for an engine that is not
stopped in one of the five statuses. -/
def report (s : State) : Option RunResult :=
  match s.status with
  | .yielded => s.outData.map .outputProduced
  | .halted => some .halted
  | .faulted => s.fault.map .faulted
  | .awaitIn => some .awaitingInput
  | .awaitOut => some .awaitingOutput
  | .ready => none
  | .running => none

/-- Host peek, any address, any status (20_memory.md R60). -/
def peek (s : State) (a : Nat) : Int := s.mem.read a

/-- The statuses in which the host may poke (20_memory.md R61). -/
def mayPoke (s : State) : Bool :=
  match s.status with
  | .ready => true
  | .yielded => true
  | .halted => true
  | .faulted => true
  | .running => false
  | .awaitIn => false
  | .awaitOut => false

/-- Host poke (20_memory.md R61). A value outside a finite word, and a new key for a full sparse
region, are refused (R67; DESIGN CHOICE, safe, log entry 12). -/
def poke (s : State) (a : Nat) (v : Int) : Host.Outcome State Fault Refusal :=
  if !mayPoke s then .refused .pokeWhileRunning
  else if !representable s.params v then .refused .pokeNotRepresentable
  else if sparseFull s a then .refused .pokeCapacity
  else .next { s with mem := s.mem.write s.n a v }

/-- The host's read of `out_data`: a fault while it is none (10_state.md R32; 93 U13). -/
def readOutData (s : State) : Except Fault Int :=
  match s.outData with
  | none => .error .noOutputData
  | some v => .ok v

/-- The provider presents one more value, after those already waiting (42_io.md R153;
70_reset_and_hazards.md R267). The port's data is one word (R150; log entry 13), and a closed input
never receives another value (R159; DEDUCED, safe, log entry 19). -/
def provide (s : State) (v : Int) : Host.Outcome State Fault Refusal :=
  if s.ports.inClosed then .refused .inputClosed
  else if representable s.params v then
    .next { s with ports := { s.ports with inQueue := s.ports.inQueue ++ [v] } }
  else .refused .inputNotRepresentable

/-- The provider closes the input (42_io.md R159). -/
def closeInput (s : State) : State := { s with ports := { s.ports with inClosed := true } }

/-- The consumer drives `out_ready` (42_io.md R150, R156). -/
def driveOutReady (s : State) (b : Bool) : State := { s with ports := { s.ports with outReady := b } }

/-- The consumer takes the oldest value put and not yet drained (42_io.md R155). -/
def drainOutput (s : State) : State :=
  { s with ports := { s.ports with outQueue := s.ports.outQueue.tail } }

/-! ### The moves between steps -/

/-- A move of the environment at one of the two ports (42_io.md R150). -/
inductive PortMove where
  /-- a value is presented at the input port -/
  | provide (v : Int)
  /-- the input closes -/
  | close
  /-- `out_ready` becomes `b` -/
  | ready (b : Bool)
  /-- the consumer takes the oldest value put -/
  | drain
deriving DecidableEq, Repr

/-- A move between steps: of the host (20_memory.md R61; 40_sequencer.md R125) or of the environment
(60_exceptions.md R237). A peek and a read of `out_data` change nothing and are no moves. -/
inductive Move where
  | run
  | poke (a : Nat) (v : Int)
  | port (m : PortMove)
deriving DecidableEq, Repr

/-- What a move at a port does. -/
def portAct (s : State) : PortMove → Host.Outcome State Fault Refusal
  | .provide v => Machine.provide s v
  | .close => .next (closeInput s)
  | .ready b => .next (driveOutReady s b)
  | .drain => .next (drainOutput s)

/-- What a move does. -/
def act (s : State) : Move → Host.Outcome State Fault Refusal
  | .run => .next (runCommand s)
  | .poke a v => Machine.poke s a v
  | .port m => portAct s m

/-- The port moves made at one step boundary, in order; a refused one is not made. -/
def environment : List PortMove → State → State
  | [], s => s
  | m :: ms, s =>
    match portAct s m with
    | .next t => environment ms t
    | .fault _ => environment ms s
    | .refused _ => environment ms s

/-! ### run_until_output_or_halt -/

/-- The value a step put at the output port, when it gave the `out_put` pulse (42_io.md R155). -/
def putBy (t : State) : List Int := if t.ports.outPut then t.outData.toList else []

/-- The loop of run_until_output_or_halt: step while a step is enabled (40_sequencer.md R126; an
enabled engine is in none of YIELDED, HALTED, FAULTED by R110). It answers the state it leaves and
the values it put, in order.
The loop need not end (70_reset_and_hazards.md R269), so it is bounded: none says that it has not
ended within `k` steps (DESIGN CHOICE, safe, log entry 17).
Whether the port signals may change between two steps of one call R126 does not say and
60_exceptions.md R237 allows: they may, `env j` being the moves made after the step that leaves `j`
of the `k` still to take; `fun _ => []` is the environment that stands still (DESIGN CHOICE, safe,
log entry 18). -/
def runLoop (env : Nat → List PortMove) : Nat → State → Option (State × List Int)
  | 0, s => if enabled s then none else some (s, [])
  | k + 1, s =>
    if enabled s then
      match step s with
      | .next t => (runLoop env k (environment (env k) t)).map (fun r => (r.1, putBy t ++ r.2))
      | .fault _ => none
      | .refused _ => none
    else some (s, [])

/-- `run_until_output_or_halt` in the environment `env`, bounded to `k` steps (40_sequencer.md R126):
the state it leaves and the values it put; its result is `report` of that state. -/
def runUntilOutputOrHalt (env : Nat → List PortMove) (k : Nat) (s : State) : Option (State × List Int) :=
  runLoop env k (runCommand s)

end Sys2Proof.Machine
end

