-- ==== Sys2Proof/Machine/Network.lean ====
section
/-! DEFINITION. Composed instances (60_exceptions.md R245 to R248): engines joined by FIFO queues
outside them. The engines share no state but the queues (10_state.md R39). Which move is next, an
engine's step, a host action or the environment's, is an argument, so a claim holds for every
schedule (R246; 92 D26; log entry 16). -/

namespace Sys2Proof.Machine

/-- A FIFO queue from the output port of engine `writer` to the input port of engine `reader`
(60_exceptions.md R245). A writer or reader beyond the network's engines is the environment's end. -/
structure Queue where
  items : List Int
  /-- how many values it holds at most; none is unbounded -/
  bound : Option Nat
  writer : Nat
  reader : Nat
deriving DecidableEq, Repr

/-- A network of engines and queues (60_exceptions.md R246). -/
structure Network where
  engines : List State
  queues : List Queue
deriving DecidableEq, Repr

/-- "queue not full"; an unbounded queue is never full (60_exceptions.md R245). -/
def Queue.hasRoom (q : Queue) : Bool :=
  match q.bound with
  | none => true
  | some k => decide (q.items.length < k)

/-- The queue read by engine `i`; a queue end has one reader (60_exceptions.md R245). -/
def Network.inputOf (net : Network) (i : Nat) : Option Queue := net.queues.find? (fun q => q.reader == i)

/-- The queue written by engine `i`. -/
def Network.outputOf (net : Network) (i : Nat) : Option Queue := net.queues.find? (fun q => q.writer == i)

/-- Whether number `i` is an engine of the network; otherwise it stands for the environment. -/
def Network.inside (net : Network) (i : Nat) : Bool := decide (i < net.engines.length)

/-- At most one reader and one writer per queue end (60_exceptions.md R245): no engine of the
network reads, and none writes, two queues. -/
def Network.wired (net : Network) : Bool :=
  decide ((net.queues.map Queue.reader).filter net.inside).Nodup
    && decide ((net.queues.map Queue.writer).filter net.inside).Nodup

/-- A queue's closed indication: its writer has terminated (60_exceptions.md R247). R247 speaks of a
writing engine only: where the writer is the environment the reader's own `in_closed`, `own`,
stands, which the environment closes (DESIGN CHOICE, safe, log entry 20). -/
def Network.closed (net : Network) (q : Queue) (own : Bool) : Bool :=
  match net.engines[q.writer]? with
  | none => own
  | some e => terminated e

/-- Engine `e`, number `i`, with its ports driven by the queues joined to them (60_exceptions.md R245). -/
def Network.drive (net : Network) (i : Nat) (e : State) : State :=
  let p1 : Ports :=
    match net.inputOf i with
    | none => e.ports
    | some q => { e.ports with inQueue := q.items, inClosed := net.closed q e.ports.inClosed }
  let p2 : Ports :=
    match net.outputOf i with
    | none => p1
    | some q => { p1 with outReady := q.hasRoom }
  { e with ports := p2 }

/-- What a step of engine `i`, which left it in state `t`, does to a queue: `in_take` removes the
head of the queue it reads, `out_put` appends `out_data` to the queue it writes
(60_exceptions.md R245). -/
def Queue.after (q : Queue) (i : Nat) (t : State) : Queue :=
  let items1 := if q.reader = i ∧ t.ports.inTake = true then q.items.tail else q.items
  let items2 := if q.writer = i ∧ t.ports.outPut = true then items1 ++ t.outData.toList else items1
  { q with items := items2 }

/-- The engine as the network keeps it: what stands behind a joined port is the queue's and not
the engine's own, so those fields go back to what they were. -/
def Network.keep (net : Network) (i : Nat) (before after : State) : State :=
  let p1 : Ports :=
    match net.inputOf i with
    | none => after.ports
    | some _ => { after.ports with inQueue := before.ports.inQueue, inClosed := before.ports.inClosed }
  let p2 : Ports :=
    match net.outputOf i with
    | none => p1
    | some _ => { p1 with outReady := before.ports.outReady, outQueue := before.ports.outQueue }
  { after with ports := p2 }

/-- Whether engine `i` has an enabled step (60_exceptions.md R246). -/
def Network.enabled (net : Network) (i : Nat) : Bool :=
  match net.engines[i]? with
  | none => false
  | some e => Machine.enabled (net.drive i e)

/-- One network step by engine `i`: the engine's step and its queue operations together
(60_exceptions.md R246); none where that engine has no enabled step. -/
def Network.step (net : Network) (i : Nat) : Option Network :=
  match net.engines[i]? with
  | none => none
  | some e =>
    if Machine.enabled (net.drive i e) then
      match Machine.step (net.drive i e) with
      | .next t =>
        some { engines := net.engines.set i (net.keep i e t), queues := net.queues.map (fun q => q.after i t) }
      | .fault _ => none
      | .refused _ => none
    else none

/-- Which moves on engine `i` are open to the host and the environment: the run command and a poke;
and at a port only what no queue drives, or closing an input whose queue the environment writes
(60_exceptions.md R245; DESIGN CHOICE, safe, log entry 16). -/
def Network.mayAct (net : Network) (i : Nat) : Move → Bool
  | .run => true
  | .poke _ _ => true
  | .port (.provide _) => (net.inputOf i).isNone
  | .port .close =>
    match net.inputOf i with
    | none => true
    | some q => !net.inside q.writer
  | .port (.ready _) => (net.outputOf i).isNone
  | .port .drain => (net.outputOf i).isNone

/-- A host action on engine `i` (60_exceptions.md R246): the move itself, with its own guards
(70_reset_and_hazards.md R267); none where it is refused. -/
def Network.hostAction (net : Network) (i : Nat) (m : Move) : Option Network :=
  match net.engines[i]? with
  | none => none
  | some e =>
    if net.mayAct i m then
      match act e m with
      | .next t => some { net with engines := net.engines.set i t }
      | .fault _ => none
      | .refused _ => none
    else none

/-- Whether the reader of a queue may be given `v`: a word of its width, at an input not closed
(42_io.md R150, R159; log entries 13, 19). -/
def Network.accepts (net : Network) (q : Queue) (v : Int) : Bool :=
  match net.engines[q.reader]? with
  | none => true
  | some e => !e.ports.inClosed && representable e.params v

/-- The environment puts a value on a queue it writes (60_exceptions.md R245). -/
def Network.supply (net : Network) (k : Nat) (v : Int) : Option Network :=
  match net.queues[k]? with
  | none => none
  | some q =>
    if !net.inside q.writer && q.hasRoom && net.accepts q v then
      some { net with queues := net.queues.set k { q with items := q.items ++ [v] } }
    else none

/-- The environment takes the head of a queue it reads (60_exceptions.md R245). -/
def Network.collect (net : Network) (k : Nat) : Option Network :=
  match net.queues[k]? with
  | none => none
  | some q =>
    if !net.inside q.reader && !q.items.isEmpty then
      some { net with queues := net.queues.set k { q with items := q.items.tail } }
    else none

/-- What may take place at a network step (60_exceptions.md R246). -/
inductive NetMove where
  /-- engine `i` takes its enabled step -/
  | step (i : Nat)
  /-- a host action, or the environment's move, on engine `i` -/
  | host (i : Nat) (m : Move)
  /-- the environment puts a value on queue `k` -/
  | supply (k : Nat) (v : Int)
  /-- the environment takes a value from queue `k` -/
  | collect (k : Nat)
deriving DecidableEq, Repr

/-- The network after a move, none where the move cannot take place. -/
def Network.move (net : Network) : NetMove → Option Network
  | .step i => net.step i
  | .host i m => net.hostAction i m
  | .supply k v => net.supply k v
  | .collect k => net.collect k

/-- The network has terminated: every engine is HALTED (60_exceptions.md R247). -/
def Network.terminated (net : Network) : Bool :=
  net.engines.all (fun e => decide (e.status = .halted))

/-- The network is stuck: no engine has an enabled step and some engine is not HALTED
(60_exceptions.md R247). -/
def Network.stuck (net : Network) : Bool :=
  (List.range net.engines.length).all (fun i => !net.enabled i) && !net.terminated

/-- The network after the first `k` moves of a schedule; a move that cannot take place leaves it as
it is. -/
def Network.run (schedule : Nat → NetMove) (net : Network) : Nat → Network
  | 0 => net
  | k + 1 => let m := Network.run schedule net k; (m.move (schedule k)).getD m

/-- Weak fairness (60_exceptions.md R248): an engine whose step stays enabled is eventually stepped. -/
def Network.WeaklyFair (schedule : Nat → NetMove) (net : Network) : Prop :=
  ∀ i k, (∀ j, k ≤ j → (Network.run schedule net j).enabled i = true) → ∃ j, k ≤ j ∧ schedule j = .step i

end Sys2Proof.Machine
end

