-- ==== Sys2Proof/Safety.lean ====
section
/-! DEFINITION. The terms claims use: what the spec's operand rules say of a slot, written as plain
conditions on the state beside the executing functions; the checks of one instruction in the spec's
order; and the invariants of an engine. -/

namespace Sys2Proof.Machine

/-! ### Argument slots (30_encoding.md R88; 40_sequencer.md R114, R115) -/

/-- The argument word of slot `i` is reachable: its address `ip + 1 + i` is a word and not negative. -/
def ArgOk (s : State) (i : Nat) : Prop :=
  representable s.params (s.ip + 1 + i) = true ∧ 0 ≤ s.ip + 1 + i

/-- The argument word `M[ip + 1 + i]`. -/
def arg (s : State) (i : Nat) : Int := s.mem.read (s.ip + 1 + i).toNat

/-- The effective address of slot `i`: the argument word, plus `rb` in relative mode. -/
def slotAddress (s : State) (i : Nat) : Mode → Int
  | .position => arg s i
  | .immediate => arg s i
  | .relative => arg s i + s.rb

/-- The effective address of slot `i` is one a read or write may use. -/
def AddressOk (s : State) (i : Nat) (m : Mode) : Prop :=
  representable s.params (slotAddress s i m) = true ∧ 0 ≤ slotAddress s i m

/-- A SRC slot that can be read. In position mode the address is the argument word, a word already. -/
def SrcOk (s : State) (i : Nat) : Mode → Prop
  | .immediate => ArgOk s i
  | .position => ArgOk s i ∧ 0 ≤ slotAddress s i .position
  | .relative => ArgOk s i ∧ AddressOk s i .relative

/-- The value of a SRC slot. -/
def srcValue (s : State) (i : Nat) : Mode → Int
  | .immediate => arg s i
  | .position => s.mem.read (slotAddress s i .position).toNat
  | .relative => s.mem.read (slotAddress s i .relative).toNat

/-- A DST slot that can be written: in position or relative mode, at an address that is not negative. -/
def DstOk (s : State) (i : Nat) : Mode → Prop
  | .immediate => False
  | .position => ArgOk s i ∧ 0 ≤ slotAddress s i .position
  | .relative => ArgOk s i ∧ AddressOk s i .relative

/-- The address a DST slot names. -/
def dstAddress (s : State) (i : Nat) (m : Mode) : Nat := (slotAddress s i m).toNat

/-- A write to `a` does not need a new key in a full sparse region (20_memory.md R67). -/
def HasRoom (s : State) (a : Nat) : Prop :=
  a < s.n ∨ a ∈ s.mem.sparse ∨ ∀ k, s.params.sparseCapacity = some k → s.mem.sparse.length < k

/-! ### The checks of one instruction, in the order of 60_exceptions.md R236 steps 5 to 8 -/

/-- The first fault of a list of checks. -/
def firstFault : List (Option FaultCode) → Option FaultCode
  | [] => none
  | some c :: _ => some c
  | none :: t => firstFault t

/-- The fault of a value that must be representable. -/
def rangeFault (s : State) (v : Int) : Option FaultCode :=
  if representable s.params v then none else some .overflow

/-- The fault of an address that must not be negative. -/
def addressFault (a : Int) : Option FaultCode := if a < 0 then some .negativeAddress else none

/-- The fault of an access to a slot's effective address (step 5). -/
def effectiveFault (s : State) (i : Nat) : Mode → Option FaultCode
  | .immediate => none
  | .position => addressFault (slotAddress s i .position)
  | .relative => firstFault [rangeFault s (slotAddress s i .relative), addressFault (slotAddress s i .relative)]

/-- The fault of one slot (step 5). -/
def slotFault (s : State) (i : Nat) (m : Mode) : Option FaultCode :=
  firstFault [rangeFault s (s.ip + 1 + i), addressFault (s.ip + 1 + i), effectiveFault s i m]

/-- The fault of a write that needs a new key in a full sparse region (step 8). -/
def capacityFault (s : State) (a : Nat) : Option FaultCode :=
  if sparseFull s a then some .capacityExceeded else none

/-- The checks of each instruction, in order. Those of a later step are listed as they would read
if the earlier ones passed; `firstFault` stops at the first. A taken jump has no next-ip check. -/
def checks (s : State) : Instr → List (Option FaultCode)
  | .add a b c =>
    [slotFault s 0 a, slotFault s 1 b, slotFault s 2 c, rangeFault s (srcValue s 0 a + srcValue s 1 b),
      rangeFault s (s.ip + 4), capacityFault s (dstAddress s 2 c)]
  | .mul a b c =>
    [slotFault s 0 a, slotFault s 1 b, slotFault s 2 c, rangeFault s (srcValue s 0 a * srcValue s 1 b),
      rangeFault s (s.ip + 4), capacityFault s (dstAddress s 2 c)]
  | .inp a => [slotFault s 0 a, rangeFault s (s.ip + 2), capacityFault s (dstAddress s 0 a)]
  | .out a => [slotFault s 0 a, rangeFault s (s.ip + 2)]
  | .jt a b =>
    [slotFault s 0 a, slotFault s 1 b, if srcValue s 0 a = 0 then rangeFault s (s.ip + 3) else none]
  | .jf a b =>
    [slotFault s 0 a, slotFault s 1 b, if srcValue s 0 a = 0 then none else rangeFault s (s.ip + 3)]
  | .lt a b c =>
    [slotFault s 0 a, slotFault s 1 b, slotFault s 2 c, rangeFault s (s.ip + 4),
      capacityFault s (dstAddress s 2 c)]
  | .eq a b c =>
    [slotFault s 0 a, slotFault s 1 b, slotFault s 2 c, rangeFault s (s.ip + 4),
      capacityFault s (dstAddress s 2 c)]
  | .arb a => [slotFault s 0 a, rangeFault s (s.rb + srcValue s 0 a), rangeFault s (s.ip + 2)]
  | .halt => []

/-! ### The commit of one instruction (40_sequencer.md R117) -/

/-- The one store of an instruction: its destination, resolved as the instruction resolves it, and
the word stored (20_memory.md R62). None for OUT, JT, JF, ARB and HALT, and for an input that finds
no value. -/
def storeOf (s : State) : Instr → Option (Except FaultCode Nat × Int)
  | .add a b c => some (dest s 2 c, srcValue s 0 a + srcValue s 1 b)
  | .mul a b c => some (dest s 2 c, srcValue s 0 a * srcValue s 1 b)
  | .inp a => (inData s).map (fun v => (dest s 0 a, v))
  | .out _ => none
  | .jt _ _ => none
  | .jf _ _ => none
  | .lt a b c => some (dest s 2 c, if srcValue s 0 a < srcValue s 1 b then 1 else 0)
  | .eq a b c => some (dest s 2 c, if srcValue s 0 a = srcValue s 1 b then 1 else 0)
  | .arb _ => none
  | .halt => none

/-- The state after fault `c` (60_exceptions.md R230): the record's word is none exactly when `ip`
is negative (R221). -/
def Faulted (s : State) (c : FaultCode) : State :=
  { s with
    status := .faulted
    fault := some ⟨c, s.ip, if s.ip < 0 then none else some (s.mem.read s.ip.toNat)⟩
    ports := s.ports.quiet }

/-! ### Invariants of one engine -/

/-- The memory is in its canonical form, its sparse keys lie at or above N and hold every listed
cell there, and a finite capacity is not exceeded (20_memory.md R52, R53, R67). -/
structure MemoryInv (s : State) : Prop where
  canonical : s.mem.wf = true
  keysAbove : ∀ k ∈ s.mem.sparse, s.n ≤ k
  cellsKeyed : ∀ c ∈ s.mem.cells, s.n ≤ c.1 → c.1 ∈ s.mem.sparse
  withinCapacity : ∀ k, s.params.sparseCapacity = some k → s.mem.sparse.length ≤ k

/-- Every word the engine holds, and every word at its ports, is representable, in a width the spec
admits (00_scope.md R7, R8; 10_state.md R20). -/
structure RangeInv (s : State) : Prop where
  width : paramsOk s.params = true
  ip : representable s.params s.ip = true
  rb : representable s.params s.rb = true
  cells : ∀ c ∈ s.mem.cells, representable s.params c.2 = true
  inputs : ∀ v ∈ s.ports.inQueue, representable s.params v = true
  outData : ∀ v, s.outData = some v → representable s.params v = true
  outputs : ∀ v ∈ s.ports.outQueue, representable s.params v = true

/-- The status, the fault record and the output register agree (10_state.md R28, R30, R32); a
suspended engine stands at an input, or an output, that only the port holds back (R28, R37;
40_sequencer.md R122); and at most one handshake pulse is given in a step (R117). -/
structure StatusInv (s : State) : Prop where
  faulted : s.status = .faulted ↔ s.fault ≠ none
  faultIp : ∀ r, s.fault = some r → r.ip = s.ip
  yielded : s.status = .yielded → s.cfg.yieldOnOutput = true ∧ s.outData ≠ none
  awaitIn : s.status = .awaitIn → 0 ≤ s.ip ∧
    ∃ m, decode (s.mem.read s.ip.toNat) = .ok (.inp m) ∧ firstFault (checks s (.inp m)) = none
  awaitOut : s.status = .awaitOut → 0 ≤ s.ip ∧
    ∃ m, decode (s.mem.read s.ip.toNat) = .ok (.out m) ∧ firstFault (checks s (.out m)) = none
  onePulse : ¬(s.ports.inTake = true ∧ s.ports.outPut = true)

/-- The three invariants together. -/
structure Inv (s : State) : Prop where
  memory : MemoryInv s
  range : RangeInv s
  status : StatusInv s

end Sys2Proof.Machine
end

