-- ==== Sys2Proof/Certificates/Slice0/Obligations.lean ====
section
/-! DEFINITION. The statements for the provers. Each docstring says which rule of spec/ it
formalises. Where a statement rests on a choice of the model, it names the log entry. -/

open Sys2Proof Sys2Proof.Machine

/-! ### Encoding and decoding (30_encoding.md) -/

/-- The decoder reads back every instruction the encoder writes (R81, R96). -/
def Obligations.DecodeEncodeRoundTrip : Prop :=
  ∀ i : Instr, i.wf = true → decode (encode i) = .ok i

/-- Exactly which words decode to an instruction: the non-negative words whose last two digits are
its operation and whose used mode digits are its modes, all legal (R83 to R85, R89 to R92). -/
def Obligations.DecodesExactlyItsWords : Prop :=
  ∀ (w : Int) (i : Instr), decode w = .ok i ↔
    0 ≤ w ∧ w % 100 = i.opcode ∧ i.wf = true ∧
      ∀ (k : Nat) (m : Mode), i.modes[k]? = some m → digit w.toNat (k + 2) = m.digit

/-- R92: the operation values 0 and 10 to 98, and no others, are unknown, with fault code 1. -/
def Obligations.UnknownOperationsAreRefused : Prop :=
  (∀ w : Int, decode w = .error .unknownOpcode ↔ 0 ≤ w ∧ (w % 100 = 0 ∨ (10 ≤ w % 100 ∧ w % 100 ≤ 98))) ∧
    FaultCode.unknownOpcode.code = 1

/-- R89: a mode digit 3 to 9 in a slot the operation uses is InvalidMode, fault code 3. -/
def Obligations.InvalidModeDigitIsRefused : Prop :=
  (∀ (w : Int) (kinds : List SlotKind) (k : Nat), 0 ≤ w → slotKinds (w % 100).toNat = some kinds →
    k < kinds.length → 3 ≤ digit w.toNat (k + 2) → decode w = .error .invalidMode) ∧
    FaultCode.invalidMode.code = 3

/-- The fault of the decoder's loop over the slots is that of the first bad slot, and there is one
only if a slot is bad (R90, R98; 60_exceptions.md R236 step 4). -/
def Obligations.FirstBadSlotDecides : Prop :=
  ∀ (w : Int) (kinds : List SlotKind) (c : FaultCode), 0 ≤ w → slotKinds (w % 100).toNat = some kinds →
    (decode w = .error c ↔
      ∃ (k : Nat) (kind : SlotKind), kinds[k]? = some kind ∧
        ((3 ≤ digit w.toNat (k + 2) ∧ c = .invalidMode) ∨
          (kind = .dst ∧ digit w.toNat (k + 2) = 1 ∧ c = .invalidDestinationMode)) ∧
        ∀ (j : Nat) (kj : SlotKind), j < k → kinds[j]? = some kj →
          digit w.toNat (j + 2) ≤ 2 ∧ ¬(kj = .dst ∧ digit w.toNat (j + 2) = 1))

/-- R91: mode digits at positions at or above the arity have no effect on what a word decodes to;
with the rule's own examples. -/
def Obligations.UnusedDigitsAreIgnored : Prop :=
  (∀ (w w' : Int) (kinds : List SlotKind), 0 ≤ w → 0 ≤ w' → w' % 100 = w % 100 →
    slotKinds (w % 100).toNat = some kinds →
    (∀ k, k < kinds.length → digit w'.toNat (k + 2) = digit w.toNat (k + 2)) → decode w' = decode w) ∧
  decode 99 = .ok .halt ∧ decode 199 = .ok .halt ∧ decode 999 = .ok .halt ∧ decode 21099 = .ok .halt ∧
  decode 101101 = .ok (.add .immediate .immediate .position)

/-- R96: the encoder's word is op + 100*m0 + 1000*m1 + 10000*m2 with 0 for the slots an operation
lacks, it is the shortest word of the instruction, and every other non-negative word with the same
last two digits and the same used mode digits decodes to the same instruction. -/
def Obligations.CanonicalWordIsShortest : Prop :=
  ∀ i : Instr, i.wf = true →
    (∀ m : Nat → Nat, (∀ k, m k = (i.modes[k]?.map Mode.digit).getD 0) →
      encode i = i.opcode + 100 * m 0 + 1000 * m 1 + 10000 * m 2) ∧
    (∀ w : Int, decode w = .ok i → encode i ≤ w) ∧
    (∀ w : Int, 0 ≤ w → w % 100 = encode i % 100 →
      (∀ k, k < i.arity → digit w.toNat (k + 2) = digit (encode i).toNat (k + 2)) → decode w = .ok i)

/-- Words written out digit by digit from the spec's encodings (R82, R86), one or more for each
family, the spec's own two decodings (R85, R102) among them. -/
def Obligations.SampleWordsDecode : Prop :=
  decode 1002 = .ok (.mul .position .immediate .position) ∧
  decode 1101 = .ok (.add .immediate .immediate .position) ∧
  decode 22201 = .ok (.add .relative .relative .relative) ∧
  decode 203 = .ok (.inp .relative) ∧
  decode 104 = .ok (.out .immediate) ∧
  decode 1005 = .ok (.jt .position .immediate) ∧
  decode 2106 = .ok (.jf .immediate .relative) ∧
  decode 20107 = .ok (.lt .immediate .position .relative) ∧
  decode 1208 = .ok (.eq .relative .immediate .position) ∧
  decode 109 = .ok (.arb .immediate) ∧
  decode 99 = .ok .halt

/-! ### Operand forms (30_encoding.md R88, 40_sequencer.md R114, R115) -/

/-- R114: the value of a source slot in each mode, with every fault its reads and its range checks
can raise, in order. -/
def Obligations.SourceSlotValue : Prop :=
  ∀ (s : State) (i : Nat) (m : Mode),
    value s i m =
      (if representable s.params (s.ip + 1 + i) = false then .error .overflow
       else if s.ip + 1 + i < 0 then .error .negativeAddress
       else
         let a := s.mem.read (s.ip + 1 + i).toNat
         match m with
         | .immediate => .ok a
         | .position => if a < 0 then .error .negativeAddress else .ok (s.mem.read a.toNat)
         | .relative =>
           if representable s.params (a + s.rb) = false then .error .overflow
           else if a + s.rb < 0 then .error .negativeAddress
           else .ok (s.mem.read (a + s.rb).toNat))

/-- R115: the address of a destination slot in its two legal modes, with every fault, in order. -/
def Obligations.DestinationSlotAddress : Prop :=
  ∀ (s : State) (i : Nat) (m : Mode), m.legalDst = true →
    dest s i m =
      (if representable s.params (s.ip + 1 + i) = false then .error .overflow
       else if s.ip + 1 + i < 0 then .error .negativeAddress
       else
         let a := s.mem.read (s.ip + 1 + i).toNat
         if m = .position then (if a < 0 then .error .negativeAddress else .ok a.toNat)
         else if representable s.params (a + s.rb) = false then .error .overflow
         else if a + s.rb < 0 then .error .negativeAddress
         else .ok (a + s.rb).toNat)

/-- 45_relative_base.md R201: a relative slot reads and writes the location that a position slot
naming the summed address does. The engine `t` is one whose argument word is that sum. -/
def Obligations.RelativeSlotIsPositionAtTheSum : Prop :=
  ∀ (s t : State) (i : Nat),
    t.ip = s.ip → t.params = s.params → arg t i = arg s i + s.rb →
    representable s.params (arg s i + s.rb) = true →
    (0 ≤ arg s i + s.rb → t.mem.read (arg s i + s.rb).toNat = s.mem.read (arg s i + s.rb).toNat) →
    value s i .relative = value t i .position ∧ dest s i .relative = dest t i .position

/-! ### Each instruction's own effect. Every next state is written out whole, so each statement is
also the frame of the instruction where it completes. -/

/-- ADD (41_arithmetic.md R140; 40_sequencer.md R117 to R119): the exact sum is written. -/
def Obligations.AddWritesTheSum : Prop :=
  ∀ (s : State) (a b c : Mode), SrcOk s 0 a → SrcOk s 1 b → DstOk s 2 c →
    representable s.params (srcValue s 0 a + srcValue s 1 b) = true →
    representable s.params (s.ip + 4) = true → HasRoom s (dstAddress s 2 c) →
    exec (.add a b c) s = .next { s with
      mem := s.mem.write s.n (dstAddress s 2 c) (srcValue s 0 a + srcValue s 1 b)
      ip := s.ip + 4, status := .running, ports := { s.ports with inTake := false, outPut := false } }

/-- MUL (41_arithmetic.md R141): the exact product is written. -/
def Obligations.MulWritesTheProduct : Prop :=
  ∀ (s : State) (a b c : Mode), SrcOk s 0 a → SrcOk s 1 b → DstOk s 2 c →
    representable s.params (srcValue s 0 a * srcValue s 1 b) = true →
    representable s.params (s.ip + 4) = true → HasRoom s (dstAddress s 2 c) →
    exec (.mul a b c) s = .next { s with
      mem := s.mem.write s.n (dstAddress s 2 c) (srcValue s 0 a * srcValue s 1 b)
      ip := s.ip + 4, status := .running, ports := { s.ports with inTake := false, outPut := false } }

/-- LT (44_compare.md R190): 1 is written if the first value is the smaller as a signed integer,
else 0. -/
def Obligations.LtWritesOneOrZero : Prop :=
  ∀ (s : State) (a b c : Mode), SrcOk s 0 a → SrcOk s 1 b → DstOk s 2 c →
    representable s.params (s.ip + 4) = true → HasRoom s (dstAddress s 2 c) →
    exec (.lt a b c) s = .next { s with
      mem := s.mem.write s.n (dstAddress s 2 c) (if srcValue s 0 a < srcValue s 1 b then 1 else 0)
      ip := s.ip + 4, status := .running, ports := { s.ports with inTake := false, outPut := false } }

/-- EQ (44_compare.md R191): 1 is written if the two values are the same integer, else 0. -/
def Obligations.EqWritesOneOrZero : Prop :=
  ∀ (s : State) (a b c : Mode), SrcOk s 0 a → SrcOk s 1 b → DstOk s 2 c →
    representable s.params (s.ip + 4) = true → HasRoom s (dstAddress s 2 c) →
    exec (.eq a b c) s = .next { s with
      mem := s.mem.write s.n (dstAddress s 2 c) (if srcValue s 0 a = srcValue s 1 b then 1 else 0)
      ip := s.ip + 4, status := .running, ports := { s.ports with inTake := false, outPut := false } }

/-- IN with a value available (42_io.md R151, R153): the oldest waiting value is written and taken.
That it stands in a queue is the model's choice (log entry 5). -/
def Obligations.InWritesTheValueTaken : Prop :=
  ∀ (s : State) (a : Mode) (v : Int) (rest : List Int), DstOk s 0 a →
    representable s.params (s.ip + 2) = true → HasRoom s (dstAddress s 0 a) → s.ports.inQueue = v :: rest →
    exec (.inp a) s = .next { s with
      mem := s.mem.write s.n (dstAddress s 0 a) v
      ip := s.ip + 2, status := .running
      ports := { s.ports with inQueue := rest, inTake := true, outPut := false } }

/-- IN with no value available (42_io.md R152): AWAIT_IN, with nothing else changed and no pulse. -/
def Obligations.InSuspendsWithoutAValue : Prop :=
  ∀ (s : State) (a : Mode), DstOk s 0 a →
    representable s.params (s.ip + 2) = true → HasRoom s (dstAddress s 0 a) → s.ports.inQueue = [] →
    exec (.inp a) s = .next { s with
      status := .awaitIn, ports := { s.ports with inTake := false, outPut := false } }

/-- OUT with the port ready (42_io.md R154, R155): the value becomes out_data and is put once; the
engine stops in YIELDED when yield_on_output is 1 and goes on when it is 0. That it joins a queue
is the model's choice (log entry 6). -/
def Obligations.OutPutsTheValue : Prop :=
  ∀ (s : State) (a : Mode), SrcOk s 0 a → representable s.params (s.ip + 2) = true → s.ports.outReady = true →
    exec (.out a) s = .next { s with
      ip := s.ip + 2, status := (if s.cfg.yieldOnOutput then .yielded else .running)
      outData := some (srcValue s 0 a)
      ports := { s.ports with outQueue := s.ports.outQueue ++ [srcValue s 0 a], inTake := false, outPut := true } }

/-- OUT with the port not ready (42_io.md R156): AWAIT_OUT, with nothing else changed and no pulse. -/
def Obligations.OutSuspendsWhenBlocked : Prop :=
  ∀ (s : State) (a : Mode), SrcOk s 0 a → representable s.params (s.ip + 2) = true → s.ports.outReady = false →
    exec (.out a) s = .next { s with
      status := .awaitOut, ports := { s.ports with inTake := false, outPut := false } }

/-- JT (43_jumps.md R180, R182): any value but 0 jumps to the target itself; 0 falls through. -/
def Obligations.JtJumpsUnlessZero : Prop :=
  ∀ (s : State) (a b : Mode), SrcOk s 0 a → SrcOk s 1 b →
    (srcValue s 0 a ≠ 0 → exec (.jt a b) s = .next { s with
      ip := srcValue s 1 b, status := .running, ports := { s.ports with inTake := false, outPut := false } }) ∧
    (srcValue s 0 a = 0 → representable s.params (s.ip + 3) = true → exec (.jt a b) s = .next { s with
      ip := s.ip + 3, status := .running, ports := { s.ports with inTake := false, outPut := false } })

/-- JF (43_jumps.md R181, R182): only the integer 0 jumps. -/
def Obligations.JfJumpsOnlyOnZero : Prop :=
  ∀ (s : State) (a b : Mode), SrcOk s 0 a → SrcOk s 1 b →
    (srcValue s 0 a = 0 → exec (.jf a b) s = .next { s with
      ip := srcValue s 1 b, status := .running, ports := { s.ports with inTake := false, outPut := false } }) ∧
    (srcValue s 0 a ≠ 0 → representable s.params (s.ip + 3) = true → exec (.jf a b) s = .next { s with
      ip := s.ip + 3, status := .running, ports := { s.ports with inTake := false, outPut := false } })

/-- ARB (45_relative_base.md R200): the value, read with the old rb, is added to rb. -/
def Obligations.ArbAddsToTheBase : Prop :=
  ∀ (s : State) (a : Mode), SrcOk s 0 a → representable s.params (s.rb + srcValue s 0 a) = true →
    representable s.params (s.ip + 2) = true →
    exec (.arb a) s = .next { s with
      rb := s.rb + srcValue s 0 a, ip := s.ip + 2, status := .running
      ports := { s.ports with inTake := false, outPut := false } }

/-- HALT (46_halt.md R210): the status becomes HALTED and ip, rb and memory are unchanged, from
every state; every non-negative word ending in 99 is a halt; and the engine's report is then Halted
at every later call, with no instruction executed. -/
def Obligations.HaltOnlySetsTheStatus : Prop :=
  (∀ s : State, exec .halt s = .next { s with
    status := .halted, ports := { s.ports with inTake := false, outPut := false } }) ∧
  (∀ w : Int, 0 ≤ w → w % 100 = 99 → decode w = .ok .halt) ∧
  (∀ (s : State) (env : Nat → List PortMove) (k : Nat), s.status = .halted →
    runUntilOutputOrHalt env k s = some (s, []) ∧ report s = some .halted)

/-- 40_sequencer.md R118, R119: the next ip and the status of every instruction that commits. A jump
taken writes the absolute target; HALT keeps ip; every other instruction advances by its width. -/
def Obligations.NextIpAndStatus : Prop :=
  ∀ (i : Instr) (s t : State), exec i s = .next t →
    (t.status = .running ∨ t.status = .yielded ∨ t.status = .halted) →
    t.ip = (match i with
      | .jt a b => if srcValue s 0 a ≠ 0 then srcValue s 1 b else s.ip + 3
      | .jf a b => if srcValue s 0 a = 0 then srcValue s 1 b else s.ip + 3
      | .halt => s.ip
      | j => s.ip + j.width) ∧
    t.status = (match i with
      | .out _ => if s.cfg.yieldOnOutput then .yielded else .running
      | .halt => .halted
      | _ => .running)

/-! ### Faults (60_exceptions.md) -/

/-- R235, R236 steps 5 to 9: an instruction whose checks meet a fault takes the first, whatever the
ports hold, and an instruction takes a fault only so. A destination in immediate mode never reaches
an instruction (well-formedness). -/
def Obligations.FirstFaultIsTaken : Prop :=
  ∀ (i : Instr) (s : State), i.wf = true →
    (∀ c, firstFault (checks s i) = some c → exec i s = .next (Faulted s c)) ∧
    (∀ t, s.status ≠ .faulted → exec i s = .next t → t.status = .faulted →
      ∃ c, firstFault (checks s i) = some c ∧ t = Faulted s c)

/-- R230: a step that faults sets FAULTED and the record (code, ip, word), and changes nothing else:
memory, ip, rb and out_data keep their values and no pulse is given. -/
def Obligations.FaultEntryChangesNothingElse : Prop :=
  ∀ s t : State, s.status ≠ .faulted → step s = .next t → t.status = .faulted →
    ∃ c : FaultCode, t = { s with
      status := .faulted
      fault := some ⟨c, s.ip, if s.ip < 0 then none else some (s.mem.read s.ip.toNat)⟩
      ports := { s.ports with inTake := false, outPut := false } }

/-- 40_sequencer.md R112: the fetch at a negative ip raises NegativeAddress with no word, and every
other fetch succeeds with M[ip], which is 0 where no word is listed. -/
def Obligations.FetchFaultsOnlyAtNegativeIp : Prop :=
  ∀ s : State,
    (s.ip < 0 → enabled s = true → step s = .next { s with
      status := .faulted, fault := some ⟨.negativeAddress, s.ip, none⟩
      ports := { s.ports with inTake := false, outPut := false } }) ∧
    (0 ≤ s.ip → fetch s = .ok (s.mem.read s.ip.toNat)) ∧
    (0 ≤ s.ip → (∀ c ∈ s.mem.cells, c.1 ≠ s.ip.toNat) → fetch s = .ok 0)

/-- 30_encoding.md R83: a negative opcode word raises NegativeOpcodeWord, code 5, recording ip and
the word, and no negative word is given an operation. -/
def Obligations.NegativeOpcodeWordFaults : Prop :=
  FaultCode.negativeOpcodeWord.code = 5 ∧
  (∀ (w : Int) (i : Instr), w < 0 → decode w ≠ .ok i) ∧
  ∀ s : State, enabled s = true → 0 ≤ s.ip → s.mem.read s.ip.toNat < 0 →
    step s = .next { s with
      status := .faulted, fault := some ⟨.negativeOpcodeWord, s.ip, some (s.mem.read s.ip.toNat)⟩
      ports := { s.ports with inTake := false, outPut := false } }

/-- 40_sequencer.md R113: a decode fault is one of four, and is taken at once. -/
def Obligations.DecodeFaultIsTakenAtOnce : Prop :=
  ∀ (s : State) (c : FaultCode), enabled s = true → 0 ≤ s.ip → decode (s.mem.read s.ip.toNat) = .error c →
    step s = .next (Faulted s c) ∧
      (c = .negativeOpcodeWord ∨ c = .unknownOpcode ∨ c = .invalidMode ∨ c = .invalidDestinationMode)

/-- R222, R229: with an unbounded word no step raises Overflow, and with an unbounded sparse region
none raises CapacityExceeded. -/
def Obligations.UnboundedParametersNeverFault : Prop :=
  ∀ (s t : State) (r : FaultRecord), s.fault = none → step s = .next t → t.fault = some r →
    (s.params.wordBits = none → r.code ≠ .overflow) ∧
    (s.params.sparseCapacity = none → r.code ≠ .capacityExceeded)

/-- R231: FAULTED is terminal, no later step exists that could fault, and the fault record is never
cleared or overwritten by a step, a call, or a move of the host or the environment. The premise is
the first clause of the model's status invariant (StepKeepsStatusInv). -/
def Obligations.FaultRecordIsPermanent : Prop :=
  ∀ (s : State) (r : FaultRecord), (s.status = .faulted ↔ s.fault ≠ none) → s.fault = some r →
    s.status = .faulted ∧ enabled s = false ∧
    (∀ t, step s = .next t → t.fault = some r ∧ t.status = .faulted) ∧
    runCommand s = s ∧
    (∀ (env : Nat → List PortMove) (k : Nat), runUntilOutputOrHalt env k s = some (s, []) ∧
      report s = some (.faulted r)) ∧
    (∀ (m : Move) (t : State), act s m = .next t → t.fault = some r ∧ t.status = .faulted)

/-! ### The step (40_sequencer.md) -/

/-- R111: at an enabled step whose opcode word decodes to an instruction, the step is that
instruction's own rule and nothing around it. -/
def Obligations.StepRunsTheDecodedInstruction : Prop :=
  ∀ (s : State) (i : Instr), enabled s = true → 0 ≤ s.ip → decode (s.mem.read s.ip.toNat) = .ok i →
    step s = exec i s

/-- R110: in READY, YIELDED, HALTED and FAULTED, in AWAIT_IN with no value and in AWAIT_OUT with the
port not ready no step is enabled. What the model's step function answers there, the same state
with no pulse, is its own choice (log entry 4). 42_io.md R159: in AWAIT_IN on a closed and empty
input none is enabled for ever: every move of the host and the environment leads to such a state
again (log entry 19). -/
def Obligations.NoStepWhereNoneIsEnabled : Prop :=
  ∀ s : State,
    (enabled s = true ↔ s.status = .running ∨ (s.status = .awaitIn ∧ s.ports.inQueue ≠ []) ∨
      (s.status = .awaitOut ∧ s.ports.outReady = true)) ∧
    (enabled s = false → step s = .next { s with ports := { s.ports with inTake := false, outPut := false } }) ∧
    (s.status = .awaitIn → s.ports.inQueue = [] → s.ports.inClosed = true →
      enabled s = false ∧ ∀ (m : Move) (t : State), act s m = .next t →
        t.status = .awaitIn ∧ t.ports.inQueue = [] ∧ t.ports.inClosed = true)

/-- R124, 30_encoding.md R93: whatever the opcode word, a step never ends in a fault or a refusal of
the model. That the step function answers a state where no step is enabled, and that a fault is a
next state, are the model's choices (log entries 4 and 8). -/
def Obligations.EveryStepAnswers : Prop :=
  ∀ s : State, ∃ t : State, step s = .next t

/-- R110, R117, 20_memory.md R62, R64: an enabled step faults with only the status and the record
changed; or it runs an instruction that passes every check, which suspends with only the status
changed, where the port holds it back, or commits whole: its one store, at the address its
destination slot names, its ip, rb, status, out_data and handshake, and nothing else. That a fault
is a next state is log entry 8; the queues behind the ports are log entries 5 and 6. -/
def Obligations.StepCommitsSuspendsOrFaults : Prop :=
  ∀ s t : State, enabled s = true → step s = .next t →
    (∃ c, t = Faulted s c) ∨
    ∃ i : Instr, 0 ≤ s.ip ∧ decode (s.mem.read s.ip.toNat) = .ok i ∧ firstFault (checks s i) = none ∧
      ((∃ m, i = .inp m) ∧ s.ports.inQueue = [] ∧
          t = { s with status := .awaitIn, ports := { s.ports with inTake := false, outPut := false } } ∨
        (∃ m, i = .out m) ∧ s.ports.outReady = false ∧
          t = { s with status := .awaitOut, ports := { s.ports with inTake := false, outPut := false } } ∨
        ((∃ m, i = .inp m) → s.ports.inQueue ≠ []) ∧ ((∃ m, i = .out m) → s.ports.outReady = true) ∧
          (match storeOf s i with
            | none => t.mem = s.mem
            | some (d, v) => ∃ ea, d = .ok ea ∧ t.mem = s.mem.write s.n ea v) ∧
          t = { s with
            mem := t.mem
            ip := (match i with
              | .jt a b => if srcValue s 0 a ≠ 0 then srcValue s 1 b else s.ip + 3
              | .jf a b => if srcValue s 0 a = 0 then srcValue s 1 b else s.ip + 3
              | .halt => s.ip
              | j => s.ip + j.width)
            rb := (match i with
              | .arb a => s.rb + srcValue s 0 a
              | _ => s.rb)
            status := (match i with
              | .out _ => if s.cfg.yieldOnOutput then .yielded else .running
              | .halt => .halted
              | _ => .running)
            outData := (match i with
              | .out a => some (srcValue s 0 a)
              | _ => s.outData)
            ports := (match i with
              | .inp _ => { s.ports with inQueue := s.ports.inQueue.tail, inTake := true, outPut := false }
              | .out a =>
                { s.ports with
                  outQueue := s.ports.outQueue ++ [srcValue s 0 a], inTake := false, outPut := true }
              | _ => { s.ports with inTake := false, outPut := false }) })

/-- R121, row by row, for an engine that meets the status invariant: the transitions of the status
that a step and the run command make, and no others. In AWAIT_IN the resuming step commits an input
and in AWAIT_OUT an output (R122). Where no step is enabled, that the model's step keeps the status
is its own choice (log entry 4). -/
def Obligations.StatusTransitions : Prop :=
  (∀ s t : State, StatusInv s → step s = .next t →
    (enabled s = false ∧ t.status = s.status) ∨
    (s.status = .running ∧
      (t.status = .faulted ∨
        ∃ i : Instr, decode (s.mem.read s.ip.toNat) = .ok i ∧
          t.status = (match i with
            | .inp _ => if s.ports.inQueue = [] then .awaitIn else .running
            | .out _ =>
              if s.ports.outReady = false then .awaitOut else if s.cfg.yieldOnOutput then .yielded else .running
            | .halt => .halted
            | _ => .running))) ∨
    (s.status = .awaitIn ∧ s.ports.inQueue ≠ [] ∧
      (∃ m, decode (s.mem.read s.ip.toNat) = .ok (.inp m)) ∧ t.status = .running) ∨
    (s.status = .awaitOut ∧ s.ports.outReady = true ∧
      (∃ m, decode (s.mem.read s.ip.toNat) = .ok (.out m)) ∧
      t.status = (if s.cfg.yieldOnOutput then .yielded else .running))) ∧
  (∀ s : State, (runCommand s).status =
    if s.status = .ready ∨ s.status = .yielded then .running else s.status)

/-- R122, 42_io.md R152: after an input suspended, the step enabled by a value is the very step the
engine would have taken had the value been there: nothing is skipped, repeated or kept. -/
def Obligations.SuspendedInputResumes : Prop :=
  ∀ (s t t' s' : State) (v : Int), s.status = .running → step s = .next t → t.status = .awaitIn →
    provide t v = .next t' → provide s v = .next s' → step t' = step s' ∧ t'.ip = s.ip ∧ enabled t' = true

/-- R122, 42_io.md R156: the same for an output the port did not accept. -/
def Obligations.SuspendedOutputResumes : Prop :=
  ∀ (s t : State), s.status = .running → step s = .next t → t.status = .awaitOut →
    step (driveOutReady t true) = step (driveOutReady s true) ∧ t.ip = s.ip ∧
      enabled (driveOutReady t true) = true

/-- 43_jumps.md R182, 92 D22: a taken jump, JT or JF, to a negative target commits, and the next step
faults with NegativeAddress and no word, at that ip. -/
def Obligations.NegativeJumpTargetFaultsAtTheNextFetch : Prop :=
  ∀ (i : Instr) (s t : State) (a b : Mode), SrcOk s 0 a → SrcOk s 1 b →
    ((i = .jt a b ∧ srcValue s 0 a ≠ 0) ∨ (i = .jf a b ∧ srcValue s 0 a = 0)) → srcValue s 1 b < 0 →
    exec i s = .next t →
    t.ip = srcValue s 1 b ∧ t.status = .running ∧ t.fault = s.fault ∧
    step t = .next { t with
      status := .faulted, fault := some ⟨.negativeAddress, srcValue s 1 b, none⟩ }

/-- 20_memory.md R71, R73: what ADD writes is what the next fetch sees when it wrote the next opcode
word, and its own advance is by its decoded width even when it overwrote its own opcode word. -/
def Obligations.WrittenWordIsFetchedNext : Prop :=
  ∀ (s t : State) (a b c : Mode), exec (.add a b c) s = .next t → t.status = .running →
    t.ip = s.ip + 4 ∧
    (∀ ea, dest s 2 c = .ok ea → t.mem.read ea = srcValue s 0 a + srcValue s 1 b ∧
      ((ea : Int) = s.ip + 4 → fetch t = .ok (srcValue s 0 a + srcValue s 1 b)))

/-- 42_io.md R153, R155, R158: a step with the take pulse removes exactly the oldest waiting value and
commits an input; one without it removes none; and likewise one value put for each put pulse. -/
def Obligations.EachValueCrossesOnce : Prop :=
  ∀ s t : State, step s = .next t →
    (t.ports.inTake = true → (∃ v, s.ports.inQueue = v :: t.ports.inQueue ∧
      ∃ m, decode (s.mem.read s.ip.toNat) = .ok (.inp m) ∧ ∀ ea, dest s 0 m = .ok ea → t.mem.read ea = v) ∧
      t.ip = s.ip + 2) ∧
    (t.ports.inTake = false → t.ports.inQueue = s.ports.inQueue) ∧
    (t.ports.outPut = true → ∃ v, t.outData = some v ∧ t.ports.outQueue = s.ports.outQueue ++ [v] ∧
      t.ip = s.ip + 2) ∧
    (t.ports.outPut = false → t.outData = s.outData ∧ t.ports.outQueue = s.ports.outQueue)

/-! ### Frames -/

/-- The frame of the instructions that store to their third slot: ADD, MUL, LT, EQ
(41_arithmetic.md, 44_compare.md; 10_state.md R35). -/
def Obligations.FrameOfThreeSlotStores : Prop :=
  ∀ (i : Instr) (a b c : Mode) (s t : State),
    (i = .add a b c ∨ i = .mul a b c ∨ i = .lt a b c ∨ i = .eq a b c) → exec i s = .next t →
    t.rb = s.rb ∧ t.n = s.n ∧ t.outData = s.outData ∧ t.cfg = s.cfg ∧ t.params = s.params ∧
    t.ports = { s.ports with inTake := false, outPut := false } ∧
    (t.status = .faulted ∨ (t.status = .running ∧ t.fault = s.fault)) ∧
    (∀ x, (t.status = .faulted ∨ ∀ ea, dest s 2 c = .ok ea → x ≠ ea) → t.mem.read x = s.mem.read x)

/-- The frame of IN (42_io.md R151, R152). -/
def Obligations.FrameOfInput : Prop :=
  ∀ (m : Mode) (s t : State), exec (.inp m) s = .next t →
    t.rb = s.rb ∧ t.n = s.n ∧ t.outData = s.outData ∧ t.cfg = s.cfg ∧ t.params = s.params ∧
    t.ports.inClosed = s.ports.inClosed ∧ t.ports.outReady = s.ports.outReady ∧
    t.ports.outQueue = s.ports.outQueue ∧ t.ports.outPut = false ∧
    ((t.status = .running ∧ t.ports.inTake = true ∧ ∃ v, s.ports.inQueue = v :: t.ports.inQueue) ∨
      ((t.status = .faulted ∨ t.status = .awaitIn) ∧ t.ports.inTake = false ∧
        t.ports.inQueue = s.ports.inQueue)) ∧
    (t.status = .faulted ∨ t.fault = s.fault) ∧
    (∀ x, (t.status = .faulted ∨ t.status = .awaitIn ∨ ∀ ea, dest s 0 m = .ok ea → x ≠ ea) →
      t.mem.read x = s.mem.read x)

/-- The frame of OUT, JT, JF, ARB and HALT, which store nothing: all of memory is unchanged, rb but
for ARB, and out_data and the output side but for OUT (10_state.md R35; 20_memory.md R62). -/
def Obligations.FrameOfNonStoring : Prop :=
  ∀ (i : Instr) (s t : State),
    ((∃ a, i = .out a) ∨ (∃ a b, i = .jt a b) ∨ (∃ a b, i = .jf a b) ∨ (∃ a, i = .arb a) ∨ i = .halt) →
    exec i s = .next t →
    (∀ x, t.mem.read x = s.mem.read x) ∧ t.mem.sparse = s.mem.sparse ∧
    t.n = s.n ∧ t.cfg = s.cfg ∧ t.params = s.params ∧
    t.ports.inQueue = s.ports.inQueue ∧ t.ports.inClosed = s.ports.inClosed ∧ t.ports.outReady = s.ports.outReady ∧
    t.ports.inTake = false ∧
    ((∀ a, i ≠ .arb a) → t.rb = s.rb) ∧
    ((∀ a, i ≠ .out a) → t.outData = s.outData ∧ t.ports.outQueue = s.ports.outQueue ∧ t.ports.outPut = false) ∧
    (t.status = .faulted ∨ t.fault = s.fault)

/-- 10_state.md R24, 45_relative_base.md R201: only ARB changes rb: no other instruction, no step
that does not run one, and no move of the host or the environment. -/
def Obligations.OnlyArbChangesTheBase : Prop :=
  (∀ s t : State, step s = .next t → t.rb ≠ s.rb → ∃ m, decode (s.mem.read s.ip.toNat) = .ok (.arb m)) ∧
  (∀ (s t : State) (m : Move), act s m = .next t → t.rb = s.rb)

/-- 10_state.md R33, R34, R35: yield_on_output, N and the parameters are never changed by a step. -/
def Obligations.ConfigurationIsFixed : Prop :=
  ∀ s t : State, step s = .next t → t.cfg = s.cfg ∧ t.n = s.n ∧ t.params = s.params

/-! ### Invariants -/

/-- Every step keeps the memory's canonical form, its keys and its capacity (20_memory.md R53, R67). -/
def Obligations.StepKeepsMemoryInv : Prop :=
  ∀ s t : State, MemoryInv s → step s = .next t → MemoryInv t

/-- Every step keeps every word the engine holds representable: no result is ever truncated into
range and none out of range is ever stored (40_sequencer.md R120; 41_arithmetic.md R142). -/
def Obligations.StepKeepsRangeInv : Prop :=
  ∀ s t : State, RangeInv s → step s = .next t → RangeInv t

/-- Every step keeps the status, the fault record and out_data in agreement (10_state.md R28, R30, R32). -/
def Obligations.StepKeepsStatusInv : Prop :=
  ∀ s t : State, StatusInv s → step s = .next t → StatusInv t

/-- The state after reset meets the invariants. -/
def Obligations.ResetMeetsTheInvariants : Prop := Inv State.reset

/-- Every constructed engine meets the invariants (70_reset_and_hazards.md R260). -/
def Obligations.NewEngineMeetsTheInvariants : Prop :=
  ∀ (p : Params) (c : Cfg) (image : List Int) (s : State), newEngine p c image = .next s → Inv s

/-- Every move of the host and of the environment keeps the invariants: the run command, a poke, a
value presented, closing the input, driving out_ready, draining an output (20_memory.md R61;
40_sequencer.md R125; 42_io.md R150). Which pokes and values are accepted under finite parameters is
the model's choice (log entries 12, 13). -/
def Obligations.HostMovesKeepTheInvariants : Prop :=
  ∀ (s t : State) (m : Move), Inv s → act s m = .next t → Inv t

/-! ### Construction and the host (70_reset_and_hazards.md, 20_memory.md R60, R61, 40_sequencer.md R125 to R127) -/

/-- R260, 10_state.md R38: construction gives every piece of state its reset value and refuses an
image word that is not representable. -/
def Obligations.ConstructionGivesTheResetValues : Prop :=
  ∀ (p : Params) (c : Cfg) (image : List Int), paramsOk p = true →
    ((∀ v ∈ image, representable p v = true) → ∃ s, newEngine p c image = .next s ∧
      s.ip = 0 ∧ s.rb = 0 ∧ s.status = .ready ∧ s.fault = none ∧ s.outData = none ∧
      s.cfg = c ∧ s.n = image.length ∧ s.params = p ∧ s.mem.sparse = [] ∧
      ∀ a, s.mem.read a = image[a]?.getD 0) ∧
    ((∃ v ∈ image, representable p v = false) → newEngine p c image = .refused .imageNotRepresentable)

/-- R61: the host may poke only in READY, YIELDED, HALTED and FAULTED; the poke sets M[a] and leaves
every other address and all else as it was. The two further refusals, under finite parameters, are
the model's choice (log entry 12). -/
def Obligations.PokeOnlyWhileStopped : Prop :=
  ∀ (s : State) (a : Nat) (v : Int),
    ((s.status = .running ∨ s.status = .awaitIn ∨ s.status = .awaitOut) →
      poke s a v = .refused .pokeWhileRunning) ∧
    ((s.status = .ready ∨ s.status = .yielded ∨ s.status = .halted ∨ s.status = .faulted) →
      representable s.params v = true → HasRoom s a →
      ∃ t, poke s a v = .next t ∧ t = { s with mem := t.mem } ∧ peek t a = v ∧
        (∀ b, b ≠ a → peek t b = peek s b) ∧
        (∀ k, k ∈ t.mem.sparse ↔ k ∈ s.mem.sparse ∨ (k = a ∧ s.n ≤ a)))

/-- R125: the run command sets RUNNING from READY and YIELDED and otherwise changes nothing, and no
other host action enables the sequencer. (A value arriving at the input port and the consumer's
acceptance are the environment's, R110.) -/
def Obligations.RunCommandOnlyStarts : Prop :=
  ∀ s : State,
    ((s.status = .ready ∨ s.status = .yielded) → runCommand s = { s with status := .running }) ∧
    (s.status ≠ .ready → s.status ≠ .yielded → runCommand s = s) ∧
    (∀ a v t, poke s a v = .next t → enabled t = enabled s)

/-- 10_state.md R27, 60_exceptions.md R221: the numbers of the statuses and of the fault codes; the
status value 7 is never held. -/
def Obligations.StatusAndFaultNumbers : Prop :=
  (∀ st : Status, Status.ofCode st.code = some st) ∧ Status.ofCode 7 = none ∧
  [Status.ready, .running, .awaitIn, .awaitOut, .yielded, .halted, .faulted].map Status.code =
    [0, 1, 2, 3, 4, 5, 6] ∧
  [FaultCode.unknownOpcode, .invalidDestinationMode, .invalidMode, .negativeAddress, .negativeOpcodeWord,
    .overflow, .capacityExceeded].map FaultCode.code = [1, 2, 3, 4, 5, 6, 7]

/-- R127: with yield_on_output = 1 one call of run_until_output_or_halt commits at most one output,
and returns OutputProduced exactly when it committed one. It holds whatever the environment does
between the steps of the call, which is an argument (log entry 18). The call is bounded, and one that
has not ended within its bound answers nothing (log entry 17); the values put are those of the steps
that gave the out_put pulse (log entries 6 and 7). -/
def Obligations.OneOutputPerCall : Prop :=
  ∀ (env : Nat → List PortMove) (k : Nat) (s t : State) (put : List Int), s.cfg.yieldOnOutput = true →
    runUntilOutputOrHalt env k s = some (t, put) →
    ((put = [] ∧ ∀ v, report t ≠ some (.outputProduced v)) ∨
     (∃ v, put = [v] ∧ report t = some (.outputProduced v)))

/-- 40_sequencer.md R123: in HALTED and FAULTED no step is enabled, ever again, and no host or
environment move leaves them; a poke there changes memory and nothing else. -/
def Obligations.TerminatedForEver : Prop :=
  ∀ s : State, terminated s = true →
    enabled s = false ∧ runCommand s = s ∧
    (∀ t, step s = .next t → t.status = s.status ∧ t.mem = s.mem ∧ t.ip = s.ip ∧ t.rb = s.rb) ∧
    (∀ a v t, poke s a v = .next t → t = { s with mem := t.mem }) ∧
    (∀ (m : Move) (t : State), act s m = .next t → t.status = s.status ∧ enabled t = false)

/-! ### Composed instances (60_exceptions.md R245 to R247) -/

/-- R245, R246: a network step by engine i is that engine's own step with its ports driven by its
queues: in_valid and in_data by the one it reads, out_ready as "not full" by the one it writes. It
takes the head of the queue it reads exactly when it gives the take pulse and appends out_data to
the queue it writes exactly when it gives the put pulse; every other engine and every other queue is
unchanged. A host action on engine i is a move of that engine alone, with the
move's own guards; which port moves a joined port leaves open is log entry 16. -/
def Obligations.NetworkStepMovesOnlyItsOwnValues : Prop :=
  (∀ (net net' : Network) (i : Nat) (m : Move), net.hostAction i m = some net' →
    net'.queues = net.queues ∧ (∀ j, j ≠ i → net'.engines[j]? = net.engines[j]?) ∧
    ∃ e t : State, net.engines[i]? = some e ∧ act e m = .next t ∧ net'.engines[i]? = some t) ∧
  (∀ (net : Network) (i : Nat) (e : State),
    (∀ q, net.inputOf i = some q → (net.drive i e).ports.inQueue = q.items ∧
      ∀ w, net.engines[q.writer]? = some w → (net.drive i e).ports.inClosed = terminated w) ∧
    (∀ q, net.outputOf i = some q → ((net.drive i e).ports.outReady = true ↔
      ∀ k, q.bound = some k → q.items.length < k))) ∧
  ∀ (net net' : Network) (i : Nat), net.step i = some net' →
    ∃ e t : State, net.engines[i]? = some e ∧ enabled (net.drive i e) = true ∧
      Machine.step (net.drive i e) = .next t ∧
      (∀ j, j ≠ i → net'.engines[j]? = net.engines[j]?) ∧
      (∀ f, net'.engines[i]? = some f → f.mem = t.mem ∧ f.ip = t.ip ∧ f.rb = t.rb ∧ f.status = t.status ∧
        f.fault = t.fault ∧ f.outData = t.outData) ∧
      net'.queues.length = net.queues.length ∧
      (∀ (k : Nat) (q q' : Queue), net.queues[k]? = some q → net'.queues[k]? = some q' →
        q'.bound = q.bound ∧ q'.writer = q.writer ∧ q'.reader = q.reader ∧
        ((q.reader ≠ i ∨ t.ports.inTake = false) → (q.writer ≠ i ∨ t.ports.outPut = false) → q'.items = q.items) ∧
        (q.reader = i → t.ports.inTake = true → net.inputOf i = some q →
          ∃ v, q.items = v :: q'.items) ∧
        (q.writer = i → t.ports.outPut = true → ∃ v, t.outData = some v ∧ q'.items = q.items ++ [v]))

/-- R247: a stuck network has no step, though some engine is not HALTED; a network that has
terminated has none either. -/
def Obligations.StuckOrTerminatedNetworkHasNoStep : Prop :=
  ∀ net : Network, (net.stuck = true ∨ net.terminated = true) → ∀ i, net.step i = none
end

