-- ==== Sys2Proof/Laws/Decode.lean ====
section
/-! SUPPORT. The decoder and its digits: what each slot and each operation answers. -/

namespace Sys2Proof

open Sys2Proof.Machine (FaultCode)

/-- A mode digit and its mode determine each other. -/
theorem modeOfDigit_eq_some {d : Nat} {m : Mode} : modeOfDigit d = some m ↔ d = m.digit := by
  constructor
  · intro h
    unfold modeOfDigit at h
    split at h <;> simp_all <;> subst h <;> rfl
  · rintro rfl
    cases m <;> rfl

theorem modeOfDigit_eq_none {d : Nat} : modeOfDigit d = none ↔ 3 ≤ d := by
  unfold modeOfDigit
  split <;> simp_all
  rename_i h0 h1 h2
  omega

theorem decodeSlot_src_ok {d : Nat} {m : Mode} : decodeSlot .src d = .ok m ↔ d = m.digit := by
  rw [← modeOfDigit_eq_some]
  unfold decodeSlot
  cases h : modeOfDigit d with
  | none => simp
  | some x => cases x <;> simp

theorem decodeSlot_dst_ok {d : Nat} {m : Mode} : decodeSlot .dst d = .ok m ↔ d = m.digit ∧ m.legalDst = true := by
  rw [← modeOfDigit_eq_some]
  unfold decodeSlot
  cases h : modeOfDigit d with
  | none => simp
  | some x =>
    cases x
    · simp; rintro rfl; rfl
    · simp; rintro rfl; simp [Mode.legalDst]
    · simp; rintro rfl; rfl

/-- A slot's fault: a digit 3 to 9, or a destination with digit 1. -/
theorem decodeSlot_error {kind : SlotKind} {d : Nat} {c : FaultCode} :
    decodeSlot kind d = .error c ↔
      (3 ≤ d ∧ c = .invalidMode) ∨ (kind = .dst ∧ d = 1 ∧ c = .invalidDestinationMode) := by
  by_cases h : 3 ≤ d
  · have hn := modeOfDigit_eq_none.mpr h
    have h1 : d ≠ 1 := by omega
    simp [decodeSlot, hn, h, h1, eq_comm]
  · have hd : d = 0 ∨ d = 1 ∨ d = 2 := by omega
    rcases hd with rfl | rfl | rfl <;> cases kind <;> simp [decodeSlot, modeOfDigit, eq_comm]

theorem decodeSlot_ok_iff {kind : SlotKind} {d : Nat} :
    (∃ m, decodeSlot kind d = .ok m) ↔ d ≤ 2 ∧ ¬(kind = .dst ∧ d = 1) := by
  constructor
  · rintro ⟨m, h⟩
    have hno : ∀ c, decodeSlot kind d ≠ .error c := by simp [h]
    constructor
    · by_contra hd
      exact hno _ (decodeSlot_error.mpr (.inl ⟨by omega, rfl⟩))
    · rintro ⟨hk, hd⟩
      exact hno _ (decodeSlot_error.mpr (.inr ⟨hk, hd, rfl⟩))
  · rintro ⟨hd, hno⟩
    cases h : decodeSlot kind d with
    | ok m => exact ⟨m, rfl⟩
    | error c =>
      rcases decodeSlot_error.mp h with ⟨h3, -⟩ | ⟨hk, h1, -⟩
      · omega
      · exact absurd ⟨hk, h1⟩ hno

/-- The decoder's loop over the slots of an operation (30_encoding.md R98), from slot `i`. -/
def decodeSlots (w : Nat) : Nat → List SlotKind → Except FaultCode (List Mode)
  | _, [] => .ok []
  | i, k :: ks => do
    let m ← decodeSlotAt w k i
    let ms ← decodeSlots w (i + 1) ks
    return m :: ms

/-- An instruction is its operation and its modes. -/
theorem instr_ext {i j : Instr} (ho : i.opcode = j.opcode) (hm : i.modes = j.modes) : i = j := by
  cases i <;> cases j <;> simp_all [Instr.opcode, Instr.modes]

theorem decode1_eq (w : Nat) (k : SlotKind) (f : Mode → Instr) (hf : ∀ a, (f a).modes = [a]) :
    (decode1 w k f).map Instr.modes = decodeSlots w 0 [k] := by
  simp only [decode1, decodeSlots, bind, Except.bind, pure, Except.pure]
  cases decodeSlotAt w k 0 <;> simp [Except.map, hf]

theorem decode2_eq (w : Nat) (f : Mode → Mode → Instr) (hf : ∀ a b, (f a b).modes = [a, b]) :
    (decode2 w f).map Instr.modes = decodeSlots w 0 [.src, .src] := by
  simp only [decode2, decodeSlots, bind, Except.bind, pure, Except.pure]
  cases decodeSlotAt w .src 0 <;> simp [Except.map]
  cases decodeSlotAt w .src 1 <;> simp [hf]

theorem decode3_eq (w : Nat) (f : Mode → Mode → Mode → Instr) (hf : ∀ a b c, (f a b c).modes = [a, b, c]) :
    (decode3 w f).map Instr.modes = decodeSlots w 0 [.src, .src, .dst] := by
  simp only [decode3, decodeSlots, bind, Except.bind, pure, Except.pure]
  cases decodeSlotAt w .src 0 <;> simp [Except.map]
  cases decodeSlotAt w .src 1 <;> simp
  cases decodeSlotAt w .dst 2 <;> simp [hf]

/-- The opcodes of the table. -/
theorem slotKinds_eq_none {op : Nat} (h : op < 100) : slotKinds op = none ↔ op = 0 ∨ (10 ≤ op ∧ op ≤ 98) := by
  revert op
  decide

/-- The decoder of a known operation is the loop over its slots (30_encoding.md R98). -/
theorem decodeOperation_modes {w : Nat} {kinds : List SlotKind} (h : slotKinds (w % 100) = some kinds) :
    (decodeOperation w).map Instr.modes = decodeSlots w 0 kinds ∧
      ∀ i, decodeOperation w = .ok i → i.opcode = w % 100 := by
  have op1 : ∀ (k : SlotKind) (f : Mode → Instr) (n : Nat), (∀ a, (f a).opcode = n) →
      ∀ i, decode1 w k f = .ok i → i.opcode = n := by
    intro k f n hf i hi
    simp only [decode1, bind, Except.bind, pure, Except.pure] at hi
    cases h0 : decodeSlotAt w k 0 <;> simp [h0] at hi
    exact hi ▸ hf _
  have op2 : ∀ (f : Mode → Mode → Instr) (n : Nat), (∀ a b, (f a b).opcode = n) →
      ∀ i, decode2 w f = .ok i → i.opcode = n := by
    intro f n hf i hi
    simp only [decode2, bind, Except.bind, pure, Except.pure] at hi
    cases h0 : decodeSlotAt w .src 0 <;> simp [h0] at hi
    cases h1 : decodeSlotAt w .src 1 <;> simp [h1] at hi
    exact hi ▸ hf _ _
  have op3 : ∀ (f : Mode → Mode → Mode → Instr) (n : Nat), (∀ a b c, (f a b c).opcode = n) →
      ∀ i, decode3 w f = .ok i → i.opcode = n := by
    intro f n hf i hi
    simp only [decode3, bind, Except.bind, pure, Except.pure] at hi
    cases h0 : decodeSlotAt w .src 0 <;> simp [h0] at hi
    cases h1 : decodeSlotAt w .src 1 <;> simp [h1] at hi
    cases h2 : decodeSlotAt w .dst 2 <;> simp [h2] at hi
    exact hi ▸ hf _ _ _
  unfold slotKinds at h
  split at h <;> simp only [Option.some.injEq, reduceCtorEq] at h <;> subst h <;> rename_i hop <;>
    simp only [decodeOperation, hop]
  · exact ⟨decode3_eq w .add (fun _ _ _ => rfl), op3 _ 1 (fun _ _ _ => rfl)⟩
  · exact ⟨decode3_eq w .mul (fun _ _ _ => rfl), op3 _ 2 (fun _ _ _ => rfl)⟩
  · exact ⟨decode1_eq w .dst .inp (fun _ => rfl), op1 _ _ 3 (fun _ => rfl)⟩
  · exact ⟨decode1_eq w .src .out (fun _ => rfl), op1 _ _ 4 (fun _ => rfl)⟩
  · exact ⟨decode2_eq w .jt (fun _ _ => rfl), op2 _ 5 (fun _ _ => rfl)⟩
  · exact ⟨decode2_eq w .jf (fun _ _ => rfl), op2 _ 6 (fun _ _ => rfl)⟩
  · exact ⟨decode3_eq w .lt (fun _ _ _ => rfl), op3 _ 7 (fun _ _ _ => rfl)⟩
  · exact ⟨decode3_eq w .eq (fun _ _ _ => rfl), op3 _ 8 (fun _ _ _ => rfl)⟩
  · exact ⟨decode1_eq w .src .arb (fun _ => rfl), op1 _ _ 9 (fun _ => rfl)⟩
  · refine ⟨rfl, ?_⟩
    rintro i h
    cases h
    rfl

theorem decodeOperation_unknown {w : Nat} (h : slotKinds (w % 100) = none) :
    decodeOperation w = .error .unknownOpcode := by
  unfold slotKinds at h
  unfold decodeOperation
  split at h <;> simp_all

theorem opcode_cases (i : Instr) : slotKinds i.opcode = some i.kinds ∧ i.opcode < 100 := by
  cases i <;> exact ⟨rfl, by simp [Instr.opcode]⟩

/-- A list of known slot kinds is one of five. -/
theorem slotKinds_cases {op : Nat} {ks : List SlotKind} (h : slotKinds op = some ks) :
    ks = [.src, .src, .dst] ∨ ks = [.dst] ∨ ks = [.src] ∨ ks = [.src, .src] ∨ ks = [] := by
  unfold slotKinds at h
  split at h <;> simp only [Option.some.injEq, reduceCtorEq] at h <;> simp [← h]

/-- A destination slot is the last of its operation (40_sequencer.md R116). -/
theorem dst_is_last {op : Nat} {ks : List SlotKind} {j : Nat} (h : slotKinds op = some ks)
    (hd : ks[j]? = some SlotKind.dst) : j + 1 = ks.length := by
  have hlt := (List.getElem?_eq_some_iff.mp hd).1
  rcases slotKinds_cases h with rfl | rfl | rfl | rfl | rfl <;> simp at hlt ⊢ <;> rcases j with _ | _ | _ | j <;>
    simp at hd ⊢

theorem kinds_length (i : Instr) : i.kinds.length = i.modes.length := by cases i <;> rfl

/-- Well-formedness slot by slot. -/
theorem wf_iff_slots (i : Instr) : i.wf = true ↔
    ∀ (k : Nat) (m : Mode), i.modes[k]? = some m → i.kinds[k]? = some .dst → m.legalDst = true := by
  cases i <;> simp only [Instr.wf, Instr.modes, Instr.kinds, Instr.opcode, slotKinds, Option.getD_some]
  all_goals
    constructor
    · intro h k m hm hk
      rcases k with _ | _ | _ | k <;> simp_all
    · intro h
      first | trivial | exact h 0 _ rfl (by rfl) | exact h 2 _ rfl (by rfl)

theorem bind_ok {α β : Type} {x : Except FaultCode α} {f : α → Except FaultCode β} {b : β} :
    x >>= f = .ok b ↔ ∃ a, x = .ok a ∧ f a = .ok b := by
  cases x <;> simp [bind, Except.bind]

/-- The decoder's loop succeeds exactly when every slot does. -/
theorem decodeSlots_ok (w : Nat) (kinds : List SlotKind) (i : Nat) (ms : List Mode) :
    decodeSlots w i kinds = .ok ms ↔ ms.length = kinds.length ∧
      ∀ k m kd, ms[k]? = some m → kinds[k]? = some kd → decodeSlotAt w kd (i + k) = .ok m := by
  induction kinds generalizing i ms with
  | nil => simp [decodeSlots, eq_comm]
  | cons kd ks ih =>
    constructor
    · intro h
      simp only [decodeSlots] at h
      obtain ⟨m, h1, h⟩ := bind_ok.mp h
      obtain ⟨ms', h2, h⟩ := bind_ok.mp h
      simp [pure, Except.pure] at h
      subst h
      have hrest := (ih _ _).mp h2
      refine ⟨by simp [hrest.1], ?_⟩
      intro k m' kd' hm hk
      cases k with
      | zero =>
        simp at hm hk
        subst hm
        subst hk
        simpa using h1
      | succ k =>
        simp at hm hk
        rw [show i + (k + 1) = i + 1 + k by omega]
        exact hrest.2 k m' kd' hm hk
    · rintro ⟨hl, h⟩
      cases ms with
      | nil => simp at hl
      | cons m ms =>
        simp only [decodeSlots]
        refine bind_ok.mpr ⟨m, by simpa using h 0 m kd (by simp) (by simp), bind_ok.mpr ⟨ms, ?_, rfl⟩⟩
        refine (ih _ _).mpr ⟨by simpa using hl, fun k m' kd' hm hk => ?_⟩
        have := h (k + 1) m' kd' (by simpa using hm) (by simpa using hk)
        rwa [show i + (k + 1) = i + 1 + k by omega] at this

/-- The decoder's loop fails with the fault of the first bad slot. -/
theorem decodeSlots_error (w : Nat) (kinds : List SlotKind) (i : Nat) (c : FaultCode) :
    decodeSlots w i kinds = .error c ↔ ∃ k kd, kinds[k]? = some kd ∧ decodeSlotAt w kd (i + k) = .error c ∧
      ∀ j kj, j < k → kinds[j]? = some kj → ∃ m, decodeSlotAt w kj (i + j) = .ok m := by
  induction kinds generalizing i with
  | nil => simp [decodeSlots]
  | cons kd ks ih =>
    simp only [decodeSlots]
    cases h1 : decodeSlotAt w kd i with
    | error e =>
      simp only [bind, Except.bind]
      constructor
      · intro h
        cases h
        exact ⟨0, kd, by simp, by simpa using h1, by simp⟩
      · rintro ⟨k, kd', hk, he, hall⟩
        cases k with
        | zero =>
          simp at hk
          subst hk
          simp [h1] at he
          simp [he]
        | succ k =>
          obtain ⟨m, hm⟩ := hall 0 kd (by omega) (by simp)
          simp [h1] at hm
    | ok m =>
      have hrest : (bind (Except.ok m) (fun m => bind (decodeSlots w (i + 1) ks) (fun ms => pure (m :: ms))) :
          Except FaultCode (List Mode)) = .error c ↔ decodeSlots w (i + 1) ks = .error c := by
        simp only [bind, Except.bind, pure, Except.pure]
        cases decodeSlots w (i + 1) ks <;> simp
      rw [hrest, ih]
      constructor
      · rintro ⟨k, kd', hk, he, hall⟩
        refine ⟨k + 1, kd', by simpa using hk, by rwa [show i + (k + 1) = i + 1 + k by omega], ?_⟩
        intro j kj hj hkj
        cases j with
        | zero =>
          simp at hkj
          subst hkj
          exact ⟨m, by simpa using h1⟩
        | succ j =>
          rw [show i + (j + 1) = i + 1 + j by omega]
          exact hall j kj (by omega) (by simpa using hkj)
      · rintro ⟨k, kd', hk, he, hall⟩
        cases k with
        | zero =>
          simp at hk
          subst hk
          simp [h1] at he
        | succ k =>
          refine ⟨k, kd', by simpa using hk, by rwa [show i + (k + 1) = i + 1 + k by omega] at he, ?_⟩
          intro j kj hj hkj
          have := hall (j + 1) kj (by omega) (by simpa using hkj)
          rwa [show i + (j + 1) = i + 1 + j by omega] at this

end Sys2Proof
end

