-- ==== Sys2Proof/Laws/Memory.lean ====
section
/-! SUPPORT. Memory: a read after a write, and that every memory operation keeps the canonical form. -/

namespace Sys2Proof.Machine

theorem lookup_dropCell_same (cells : List (Nat × Int)) (a : Nat) : lookup (dropCell cells a) a = 0 := by
  induction cells with
  | nil => rfl
  | cons c t ih =>
    obtain ⟨b, w⟩ := c
    by_cases h : b = a
    · simpa [dropCell, h] using ih
    · simpa [dropCell, h, lookup] using ih

theorem lookup_dropCell_ne {a b : Nat} (h : b ≠ a) (cells : List (Nat × Int)) :
    lookup (dropCell cells a) b = lookup cells b := by
  induction cells with
  | nil => rfl
  | cons c t ih =>
    obtain ⟨d, w⟩ := c
    by_cases hd : d = a
    · simpa [dropCell, hd, lookup, Ne.symm h] using ih
    · have hc : dropCell ((d, w) :: t) a = (d, w) :: dropCell t a := by simp [dropCell, hd]
      simp [hc, lookup, ih]

theorem dropCell_no_key (cells : List (Nat × Int)) (a : Nat) : ∀ c ∈ dropCell cells a, c.1 ≠ a := by
  intro c hc
  simpa using (List.mem_filter.mp hc).2

theorem lookup_putCell_same (cells : List (Nat × Int)) (a : Nat) (v : Int) (h : ∀ c ∈ cells, c.1 ≠ a) :
    lookup (putCell cells a v) a = v := by
  induction cells with
  | nil => simp [putCell, lookup]
  | cons c t ih =>
    obtain ⟨b, w⟩ := c
    have hb : b ≠ a := h (b, w) (by simp)
    have ht := ih (fun c hc => h c (List.mem_cons_of_mem _ hc))
    by_cases hlt : a < b
    · simp [putCell, hlt, lookup]
    · simp [putCell, hlt, lookup, hb, ht]

theorem lookup_putCell_ne {a b : Nat} (h : b ≠ a) (cells : List (Nat × Int)) (v : Int) :
    lookup (putCell cells a v) b = lookup cells b := by
  induction cells with
  | nil => simp [putCell, lookup, Ne.symm h]
  | cons c t ih =>
    obtain ⟨d, w⟩ := c
    by_cases hlt : a < d
    · simp [putCell, hlt, lookup, Ne.symm h]
    · simp [putCell, hlt, lookup, ih]

theorem read_write_same (m : Memory) (n a : Nat) (v : Int) : (m.write n a v).read a = v := by
  by_cases hv : v = 0
  · simp [Memory.read, Memory.write, hv, lookup_dropCell_same]
  · simpa [Memory.read, Memory.write, hv] using lookup_putCell_same _ a v (dropCell_no_key m.cells a)

theorem read_write_ne {a b : Nat} (h : b ≠ a) (m : Memory) (n : Nat) (v : Int) :
    (m.write n a v).read b = m.read b := by
  by_cases hv : v = 0
  · simp [Memory.read, Memory.write, hv, lookup_dropCell_ne h]
  · simp [Memory.read, Memory.write, hv, lookup_putCell_ne h, lookup_dropCell_ne h]

theorem mem_dropCell {cells : List (Nat × Int)} {a : Nat} {c : Nat × Int} (h : c ∈ dropCell cells a) :
    c ∈ cells := (List.mem_filter.mp h).1

theorem mem_putCell {cells : List (Nat × Int)} {a : Nat} {v : Int} {c : Nat × Int}
    (h : c ∈ putCell cells a v) : c = (a, v) ∨ c ∈ cells := by
  induction cells with
  | nil => simpa [putCell] using h
  | cons d t ih =>
    obtain ⟨b, w⟩ := d
    by_cases hlt : a < b
    · simpa [putCell, hlt] using h
    · simp only [putCell, hlt, if_false, List.mem_cons] at h ⊢
      rcases h with h | h
      · exact .inr (.inl h)
      · exact (ih h).imp id .inr

/-- Every cell after a write is the cell written or an old one. -/
theorem mem_write_cells {m : Memory} {n a : Nat} {v : Int} {c : Nat × Int} (h : c ∈ (m.write n a v).cells) :
    c = (a, v) ∨ c ∈ m.cells := by
  by_cases hv : v = 0
  · exact .inr (mem_dropCell (by simpa [Memory.write, hv] using h))
  · exact (mem_putCell (by simpa [Memory.write, hv] using h)).imp id mem_dropCell

theorem mem_putKey {keys : List Nat} {a k : Nat} : k ∈ putKey keys a ↔ k = a ∨ k ∈ keys := by
  induction keys with
  | nil => simp [putKey]
  | cons b t ih =>
    by_cases h1 : a = b
    · simp [putKey, h1]
    · by_cases h2 : a < b
      · simp [putKey, h1, h2]
      · simp only [putKey, h1, h2, if_false, List.mem_cons, ih]
        tauto

theorem putKey_of_mem {keys : List Nat} {a : Nat} (hw : keysWf keys = true) (h : a ∈ keys) :
    putKey keys a = keys := by
  induction keys with
  | nil => simp at h
  | cons b t ih =>
    simp only [keysWf, Bool.and_eq_true, List.all_eq_true, decide_eq_true_eq] at hw
    by_cases h1 : a = b
    · simp [putKey, h1]
    · have ht : a ∈ t := by simpa [h1] using h
      have : ¬ a < b := Nat.not_lt.mpr (Nat.le_of_lt (hw.1 a ht))
      simp [putKey, h1, this, ih hw.2 ht]

theorem length_putKey_le (keys : List Nat) (a : Nat) : (putKey keys a).length ≤ keys.length + 1 := by
  induction keys with
  | nil => simp [putKey]
  | cons b t ih =>
    by_cases h1 : a = b
    · simp [putKey, h1]
    · by_cases h2 : a < b
      · simp [putKey, h1, h2]
      · simpa [putKey, h1, h2] using ih

theorem cellsWf_dropCell {cells : List (Nat × Int)} (h : cellsWf cells = true) (a : Nat) :
    cellsWf (dropCell cells a) = true := by
  induction cells with
  | nil => rfl
  | cons c t ih =>
    obtain ⟨b, w⟩ := c
    simp only [cellsWf, Bool.and_eq_true, List.all_eq_true, decide_eq_true_eq] at h
    have ht := ih h.2
    by_cases hb : b = a
    · simpa [dropCell, hb] using ht
    · have : dropCell ((b, w) :: t) a = (b, w) :: dropCell t a := by simp [dropCell, hb]
      rw [this]
      simp only [cellsWf, Bool.and_eq_true, List.all_eq_true, decide_eq_true_eq]
      exact ⟨⟨h.1.1, fun x hx => h.1.2 x (mem_dropCell hx)⟩, ht⟩

theorem cellsWf_putCell {cells : List (Nat × Int)} (h : cellsWf cells = true) {a : Nat} {v : Int} (hv : v ≠ 0)
    (hno : ∀ c ∈ cells, c.1 ≠ a) : cellsWf (putCell cells a v) = true := by
  induction cells with
  | nil => simp [putCell, cellsWf, hv]
  | cons c t ih =>
    obtain ⟨b, w⟩ := c
    simp only [cellsWf, Bool.and_eq_true, List.all_eq_true, decide_eq_true_eq] at h
    have hb : b ≠ a := hno (b, w) (by simp)
    by_cases hlt : a < b
    · simp only [putCell, hlt, if_true, cellsWf, Bool.and_eq_true, List.all_eq_true, decide_eq_true_eq, List.mem_cons]
      refine ⟨⟨hv, ?_⟩, h⟩
      rintro x (rfl | hx)
      · exact hlt
      · exact Nat.lt_trans hlt (h.1.2 x hx)
    · simp only [putCell, hlt, if_false, cellsWf, Bool.and_eq_true, List.all_eq_true, decide_eq_true_eq]
      refine ⟨⟨h.1.1, fun x hx => ?_⟩, ih h.2 (fun c hc => hno c (List.mem_cons_of_mem _ hc))⟩
      rcases mem_putCell hx with rfl | hx
      · show b < a
        omega
      · exact h.1.2 x hx

theorem keysWf_putKey {keys : List Nat} (h : keysWf keys = true) (a : Nat) : keysWf (putKey keys a) = true := by
  induction keys with
  | nil => rfl
  | cons b t ih =>
    have h0 := h
    simp only [keysWf, Bool.and_eq_true, List.all_eq_true, decide_eq_true_eq] at h
    by_cases h1 : a = b
    · simpa [putKey, h1] using h0
    · by_cases h2 : a < b
      · simp only [putKey, h1, h2, if_true, if_false, keysWf, Bool.and_eq_true, List.all_eq_true, decide_eq_true_eq,
          List.mem_cons]
        refine ⟨?_, h⟩
        rintro x (rfl | hx)
        · exact h2
        · exact Nat.lt_trans h2 (h.1 x hx)
      · simp only [putKey, h1, h2, if_false, keysWf, Bool.and_eq_true, List.all_eq_true, decide_eq_true_eq]
        refine ⟨fun x hx => ?_, ih h.2⟩
        rcases mem_putKey.mp hx with rfl | hx
        · omega
        · exact h.1 x hx

/-- A write keeps the canonical form. -/
theorem wf_write {m : Memory} (h : m.wf = true) (n a : Nat) (v : Int) : (m.write n a v).wf = true := by
  simp only [Memory.wf, Bool.and_eq_true] at h ⊢
  refine ⟨?_, ?_⟩
  · by_cases hv : v = 0
    · simpa [Memory.write, hv] using cellsWf_dropCell h.1 a
    · simpa [Memory.write, hv] using cellsWf_putCell (cellsWf_dropCell h.1 a) hv (dropCell_no_key m.cells a)
  · by_cases ha : a < n
    · simpa [Memory.write, ha] using h.2
    · simpa [Memory.write, ha] using keysWf_putKey h.2 a

theorem imageCells_above {k : Nat} {image : List Int} {c : Nat × Int} (h : c ∈ imageCells k image) :
    k ≤ c.1 ∧ c.1 < k + image.length ∧ c.2 ∈ image := by
  induction image generalizing k with
  | nil => simp [imageCells] at h
  | cons v t ih =>
    by_cases hv : v = 0
    · have := ih (by simpa [imageCells, hv] using h)
      simp only [List.length_cons, List.mem_cons]
      exact ⟨by omega, by omega, .inr this.2.2⟩
    · simp only [imageCells, hv, if_false, List.mem_cons] at h
      simp only [List.length_cons, List.mem_cons]
      rcases h with rfl | h
      · exact ⟨Nat.le_refl _, by simp, .inl rfl⟩
      · have := ih h
        exact ⟨by omega, by omega, .inr this.2.2⟩

theorem cellsWf_imageCells (k : Nat) (image : List Int) : cellsWf (imageCells k image) = true := by
  induction image generalizing k with
  | nil => rfl
  | cons v t ih =>
    by_cases hv : v = 0
    · simpa [imageCells, hv] using ih (k + 1)
    · simp only [imageCells, hv, if_false, cellsWf, Bool.and_eq_true, List.all_eq_true, decide_eq_true_eq]
      exact ⟨⟨hv, fun x hx => by have := (imageCells_above hx).1; omega⟩, ih (k + 1)⟩

/-- The memory of an image is in canonical form. -/
theorem wf_ofImage (image : List Int) : (Memory.ofImage image).wf = true := by
  simp [Memory.wf, Memory.ofImage, cellsWf_imageCells, keysWf]

/-- A word read is 0 or the word of a listed cell. -/
theorem read_mem (m : Memory) (a : Nat) : m.read a = 0 ∨ (a, m.read a) ∈ m.cells := by
  have key : ∀ cells : List (Nat × Int), lookup cells a = 0 ∨ (a, lookup cells a) ∈ cells := by
    intro cells
    induction cells with
    | nil => exact .inl rfl
    | cons c t ih =>
      obtain ⟨b, w⟩ := c
      by_cases hb : b = a
      · exact .inr (by simp [lookup, hb])
      · simp only [lookup, hb, if_false]
        exact ih.imp id (List.mem_cons_of_mem _)
  exact key m.cells

end Sys2Proof.Machine
end

