-- ==== Sys2Proof/Laws/Operands.lean ====
section
/-! SUPPORT. What each check and each operand form answers, once. -/

namespace Sys2Proof.Machine

theorem checkRange_ok {s : State} {v r : Int} :
    checkRange s v = .ok r ↔ representable s.params v = true ∧ r = v := by
  unfold checkRange
  by_cases h : representable s.params v = true
  · simp only [h, if_true, Except.ok.injEq, true_and]
    exact eq_comm
  · simp [h]

theorem checkRange_eq (s : State) (v : Int) :
    checkRange s v = match rangeFault s v with | some c => .error c | none => .ok v := by
  unfold checkRange rangeFault
  split <;> rfl

theorem checkAddress_ok {a : Int} {k : Nat} : checkAddress a = .ok k ↔ 0 ≤ a ∧ k = a.toNat := by
  unfold checkAddress
  by_cases h : a < 0
  · simp [h]
  · simp only [h, if_false, Except.ok.injEq, Int.not_lt.mp h, true_and]
    exact eq_comm

theorem checkAddress_eq (a : Int) :
    checkAddress a = match addressFault a with | some c => .error c | none => .ok a.toNat := by
  unfold checkAddress addressFault
  split <;> rfl

theorem memRead_ok {s : State} {a v : Int} : memRead s a = .ok v ↔ 0 ≤ a ∧ v = s.mem.read a.toNat := by
  unfold memRead checkAddress
  by_cases h : a < 0
  · simp [h, bind, Except.bind]
  · simp only [h, if_false, bind, Except.bind, pure, Except.pure, Except.ok.injEq, Int.not_lt.mp h, true_and]
    exact eq_comm

theorem memRead_eq (s : State) (a : Int) :
    memRead s a = match addressFault a with | some c => .error c | none => .ok (s.mem.read a.toNat) := by
  unfold memRead checkAddress addressFault
  split <;> rfl

theorem argWord_ok {s : State} {i : Nat} {v : Int} : argWord s i = .ok v ↔ ArgOk s i ∧ v = arg s i := by
  unfold argWord ArgOk arg
  cases h : checkRange s (s.ip + 1 + i) with
  | error c =>
    have : ¬ representable s.params (s.ip + 1 + i) = true := by
      intro hr
      simp [checkRange, hr] at h
    simp [bind, Except.bind, this]
  | ok p =>
    obtain ⟨hr, rfl⟩ := checkRange_ok.mp h
    simp [bind, Except.bind, memRead_ok, hr]

/-- A source slot answers exactly when it can be read, and then with its value. -/
theorem value_ok {s : State} {i : Nat} {m : Mode} {v : Int} :
    value s i m = .ok v ↔ SrcOk s i m ∧ v = srcValue s i m := by
  unfold value
  cases h : argWord s i with
  | error c =>
    have hno : ¬ ArgOk s i := fun ha => by simp [argWord_ok.mpr ⟨ha, rfl⟩] at h
    cases m <;> simp [bind, Except.bind, SrcOk, hno]
  | ok a =>
    obtain ⟨ha, rfl⟩ := argWord_ok.mp h
    cases m with
    | immediate => simp [bind, Except.bind, pure, Except.pure, SrcOk, srcValue, ha, eq_comm]
    | position => simp [bind, Except.bind, SrcOk, srcValue, slotAddress, ha, memRead_ok]
    | relative =>
      simp only [bind, Except.bind, SrcOk, srcValue, slotAddress, AddressOk, ha, true_and]
      cases h2 : checkRange s (arg s i + s.rb) with
      | error c =>
        have : ¬ representable s.params (arg s i + s.rb) = true := fun hr => by simp [checkRange, hr] at h2
        simp [this]
      | ok ea =>
        obtain ⟨hr, rfl⟩ := checkRange_ok.mp h2
        simp [memRead_ok, hr]

/-- A destination slot answers exactly when it can be written, and then with its address. -/
theorem dest_ok {s : State} {i : Nat} {m : Mode} {ea : Nat} :
    dest s i m = .ok ea ↔ DstOk s i m ∧ ea = dstAddress s i m := by
  unfold dest
  cases h : argWord s i with
  | error c =>
    have hno : ¬ ArgOk s i := fun ha => by simp [argWord_ok.mpr ⟨ha, rfl⟩] at h
    cases m <;> simp [bind, Except.bind, DstOk, hno]
  | ok a =>
    obtain ⟨ha, rfl⟩ := argWord_ok.mp h
    cases m with
    | immediate => simp [bind, Except.bind, DstOk]
    | position => simp [bind, Except.bind, DstOk, dstAddress, slotAddress, ha, checkAddress_ok]
    | relative =>
      simp only [bind, Except.bind, DstOk, dstAddress, slotAddress, AddressOk, ha, true_and]
      cases h2 : checkRange s (arg s i + s.rb) with
      | error c =>
        have : ¬ representable s.params (arg s i + s.rb) = true := fun hr => by simp [checkRange, hr] at h2
        simp [this]
      | ok ea =>
        obtain ⟨hr, rfl⟩ := checkRange_ok.mp h2
        simp [checkAddress_ok, hr]

theorem sparseFull_eq_false {s : State} {a : Nat} : sparseFull s a = false ↔ HasRoom s a := by
  unfold sparseFull HasRoom
  cases h : s.params.sparseCapacity with
  | none => simp
  | some k =>
    simp only [Bool.and_eq_false_iff, decide_eq_false_iff_not, Bool.not_eq_eq_eq_not, Bool.not_false,
      List.contains_iff_mem, Option.some.injEq, forall_eq', Nat.not_le, or_assoc]

theorem checkCapacity_ok {s : State} {a : Nat} : checkCapacity s a = .ok () ↔ HasRoom s a := by
  rw [← sparseFull_eq_false]
  unfold checkCapacity
  split <;> simp_all

/-- A source slot as the checks of the spec list them. -/
theorem value_eq (s : State) (i : Nat) (m : Mode) :
    value s i m = match slotFault s i m with | some c => .error c | none => .ok (srcValue s i m) := by
  unfold value argWord slotFault
  rw [checkRange_eq]
  cases h1 : rangeFault s (s.ip + 1 + i) with
  | some c => rfl
  | none =>
    simp only [bind, Except.bind, firstFault, memRead_eq]
    cases h2 : addressFault (s.ip + 1 + i) with
    | some c => rfl
    | none =>
      cases m with
      | immediate => rfl
      | position =>
        simp only [firstFault, effectiveFault, slotAddress, arg, srcValue]
        cases h3 : addressFault (s.mem.read (s.ip + 1 + i).toNat) <;> rfl
      | relative =>
        simp only [firstFault, effectiveFault, slotAddress, arg, srcValue, checkRange_eq]
        cases h3 : rangeFault s (s.mem.read (s.ip + 1 + i).toNat + s.rb) with
        | some c => rfl
        | none =>
          dsimp only
          cases h4 : addressFault (s.mem.read (s.ip + 1 + i).toNat + s.rb) <;> rfl

/-- A legal destination slot as the checks of the spec list them. -/
theorem dest_eq (s : State) (i : Nat) {m : Mode} (hm : m.legalDst = true) :
    dest s i m = match slotFault s i m with | some c => .error c | none => .ok (dstAddress s i m) := by
  unfold dest argWord slotFault
  rw [checkRange_eq]
  cases h1 : rangeFault s (s.ip + 1 + i) with
  | some c => rfl
  | none =>
    simp only [bind, Except.bind, firstFault, memRead_eq]
    cases h2 : addressFault (s.ip + 1 + i) with
    | some c => rfl
    | none =>
      cases m with
      | immediate => simp [Mode.legalDst] at hm
      | position =>
        simp only [firstFault, effectiveFault, slotAddress, arg, dstAddress, checkAddress_eq]
        cases h3 : addressFault (s.mem.read (s.ip + 1 + i).toNat) <;> rfl
      | relative =>
        simp only [firstFault, effectiveFault, slotAddress, arg, dstAddress, checkRange_eq, checkAddress_eq]
        cases h3 : rangeFault s (s.mem.read (s.ip + 1 + i).toNat + s.rb) with
        | some c => rfl
        | none =>
          dsimp only
          cases h4 : addressFault (s.mem.read (s.ip + 1 + i).toNat + s.rb) <;> rfl

theorem checkCapacity_eq (s : State) (a : Nat) :
    checkCapacity s a = match capacityFault s a with | some c => .error c | none => .ok () := by
  unfold checkCapacity capacityFault
  split <;> rfl

theorem opcodeWord_eq (s : State) :
    opcodeWord s = if s.ip < 0 then none else some (s.mem.read s.ip.toNat) := by
  unfold opcodeWord memRead checkAddress
  split <;> rfl

/-- Taking a fault leaves the state the spec's fault entry gives. -/
theorem raise_eq (s : State) (c : FaultCode) : raise s c = Faulted s c := by
  simp [raise, Faulted, opcodeWord_eq]

end Sys2Proof.Machine
end

