-- ==== Sys2Proof/Laws/State.lean ====
section
/-! SUPPORT. One lemma per field per update of the state, so that no later proof unfolds a record
update. -/

namespace Sys2Proof.Machine

section
variable (s : State) (p : Ports) (a : Nat) (v ip rb : Int) (st : Status) (c : FaultCode)

@[simp] theorem idle_ip : (idle s).ip = s.ip := rfl
@[simp] theorem idle_rb : (idle s).rb = s.rb := rfl
@[simp] theorem idle_mem : (idle s).mem = s.mem := rfl
@[simp] theorem idle_n : (idle s).n = s.n := rfl
@[simp] theorem idle_status : (idle s).status = s.status := rfl
@[simp] theorem idle_fault : (idle s).fault = s.fault := rfl
@[simp] theorem idle_outData : (idle s).outData = s.outData := rfl
@[simp] theorem idle_cfg : (idle s).cfg = s.cfg := rfl
@[simp] theorem idle_params : (idle s).params = s.params := rfl
@[simp] theorem idle_ports : (idle s).ports = s.ports.quiet := rfl

@[simp] theorem commit_ip : (commit s ip).ip = ip := rfl
@[simp] theorem commit_rb : (commit s ip).rb = s.rb := rfl
@[simp] theorem commit_mem : (commit s ip).mem = s.mem := rfl
@[simp] theorem commit_n : (commit s ip).n = s.n := rfl
@[simp] theorem commit_status : (commit s ip).status = .running := rfl
@[simp] theorem commit_fault : (commit s ip).fault = s.fault := rfl
@[simp] theorem commit_outData : (commit s ip).outData = s.outData := rfl
@[simp] theorem commit_cfg : (commit s ip).cfg = s.cfg := rfl
@[simp] theorem commit_params : (commit s ip).params = s.params := rfl
@[simp] theorem commit_ports : (commit s ip).ports = s.ports.quiet := rfl

@[simp] theorem commitWrite_ip : (commitWrite s a v ip).ip = ip := rfl
@[simp] theorem commitWrite_rb : (commitWrite s a v ip).rb = s.rb := rfl
@[simp] theorem commitWrite_mem : (commitWrite s a v ip).mem = s.mem.write s.n a v := rfl
@[simp] theorem commitWrite_n : (commitWrite s a v ip).n = s.n := rfl
@[simp] theorem commitWrite_status : (commitWrite s a v ip).status = .running := rfl
@[simp] theorem commitWrite_fault : (commitWrite s a v ip).fault = s.fault := rfl
@[simp] theorem commitWrite_outData : (commitWrite s a v ip).outData = s.outData := rfl
@[simp] theorem commitWrite_cfg : (commitWrite s a v ip).cfg = s.cfg := rfl
@[simp] theorem commitWrite_params : (commitWrite s a v ip).params = s.params := rfl
@[simp] theorem commitWrite_ports : (commitWrite s a v ip).ports = s.ports.quiet := rfl

@[simp] theorem commitBase_ip : (commitBase s rb ip).ip = ip := rfl
@[simp] theorem commitBase_rb : (commitBase s rb ip).rb = rb := rfl
@[simp] theorem commitBase_mem : (commitBase s rb ip).mem = s.mem := rfl
@[simp] theorem commitBase_n : (commitBase s rb ip).n = s.n := rfl
@[simp] theorem commitBase_status : (commitBase s rb ip).status = .running := rfl
@[simp] theorem commitBase_fault : (commitBase s rb ip).fault = s.fault := rfl
@[simp] theorem commitBase_outData : (commitBase s rb ip).outData = s.outData := rfl
@[simp] theorem commitBase_cfg : (commitBase s rb ip).cfg = s.cfg := rfl
@[simp] theorem commitBase_params : (commitBase s rb ip).params = s.params := rfl
@[simp] theorem commitBase_ports : (commitBase s rb ip).ports = s.ports.quiet := rfl

@[simp] theorem commitInput_ip : (commitInput s a v ip).ip = ip := rfl
@[simp] theorem commitInput_rb : (commitInput s a v ip).rb = s.rb := rfl
@[simp] theorem commitInput_mem : (commitInput s a v ip).mem = s.mem.write s.n a v := rfl
@[simp] theorem commitInput_n : (commitInput s a v ip).n = s.n := rfl
@[simp] theorem commitInput_status : (commitInput s a v ip).status = .running := rfl
@[simp] theorem commitInput_fault : (commitInput s a v ip).fault = s.fault := rfl
@[simp] theorem commitInput_outData : (commitInput s a v ip).outData = s.outData := rfl
@[simp] theorem commitInput_cfg : (commitInput s a v ip).cfg = s.cfg := rfl
@[simp] theorem commitInput_params : (commitInput s a v ip).params = s.params := rfl
@[simp] theorem commitInput_ports : (commitInput s a v ip).ports = s.ports.take := rfl

@[simp] theorem commitOutput_ip : (commitOutput s v ip).ip = ip := rfl
@[simp] theorem commitOutput_rb : (commitOutput s v ip).rb = s.rb := rfl
@[simp] theorem commitOutput_mem : (commitOutput s v ip).mem = s.mem := rfl
@[simp] theorem commitOutput_n : (commitOutput s v ip).n = s.n := rfl
@[simp] theorem commitOutput_status : (commitOutput s v ip).status = statusAfterOutput s := rfl
@[simp] theorem commitOutput_fault : (commitOutput s v ip).fault = s.fault := rfl
@[simp] theorem commitOutput_outData : (commitOutput s v ip).outData = some v := rfl
@[simp] theorem commitOutput_cfg : (commitOutput s v ip).cfg = s.cfg := rfl
@[simp] theorem commitOutput_params : (commitOutput s v ip).params = s.params := rfl
@[simp] theorem commitOutput_ports : (commitOutput s v ip).ports = s.ports.put v := rfl

@[simp] theorem commitHalt_ip : (commitHalt s).ip = s.ip := rfl
@[simp] theorem commitHalt_rb : (commitHalt s).rb = s.rb := rfl
@[simp] theorem commitHalt_mem : (commitHalt s).mem = s.mem := rfl
@[simp] theorem commitHalt_n : (commitHalt s).n = s.n := rfl
@[simp] theorem commitHalt_status : (commitHalt s).status = .halted := rfl
@[simp] theorem commitHalt_fault : (commitHalt s).fault = s.fault := rfl
@[simp] theorem commitHalt_outData : (commitHalt s).outData = s.outData := rfl
@[simp] theorem commitHalt_cfg : (commitHalt s).cfg = s.cfg := rfl
@[simp] theorem commitHalt_params : (commitHalt s).params = s.params := rfl
@[simp] theorem commitHalt_ports : (commitHalt s).ports = s.ports.quiet := rfl

@[simp] theorem suspend_ip : (suspend s st).ip = s.ip := rfl
@[simp] theorem suspend_rb : (suspend s st).rb = s.rb := rfl
@[simp] theorem suspend_mem : (suspend s st).mem = s.mem := rfl
@[simp] theorem suspend_n : (suspend s st).n = s.n := rfl
@[simp] theorem suspend_status : (suspend s st).status = st := rfl
@[simp] theorem suspend_fault : (suspend s st).fault = s.fault := rfl
@[simp] theorem suspend_outData : (suspend s st).outData = s.outData := rfl
@[simp] theorem suspend_cfg : (suspend s st).cfg = s.cfg := rfl
@[simp] theorem suspend_params : (suspend s st).params = s.params := rfl
@[simp] theorem suspend_ports : (suspend s st).ports = s.ports.quiet := rfl

@[simp] theorem raise_ip : (raise s c).ip = s.ip := rfl
@[simp] theorem raise_rb : (raise s c).rb = s.rb := rfl
@[simp] theorem raise_mem : (raise s c).mem = s.mem := rfl
@[simp] theorem raise_n : (raise s c).n = s.n := rfl
@[simp] theorem raise_status : (raise s c).status = .faulted := rfl
@[simp] theorem raise_fault : (raise s c).fault = some { code := c, ip := s.ip, word := opcodeWord s } := rfl
@[simp] theorem raise_outData : (raise s c).outData = s.outData := rfl
@[simp] theorem raise_cfg : (raise s c).cfg = s.cfg := rfl
@[simp] theorem raise_params : (raise s c).params = s.params := rfl
@[simp] theorem raise_ports : (raise s c).ports = s.ports.quiet := rfl

@[simp] theorem ports_quiet_inQueue : p.quiet.inQueue = p.inQueue := rfl
@[simp] theorem ports_quiet_inClosed : p.quiet.inClosed = p.inClosed := rfl
@[simp] theorem ports_quiet_outReady : p.quiet.outReady = p.outReady := rfl
@[simp] theorem ports_quiet_outQueue : p.quiet.outQueue = p.outQueue := rfl
@[simp] theorem ports_quiet_inTake : p.quiet.inTake = false := rfl
@[simp] theorem ports_quiet_outPut : p.quiet.outPut = false := rfl

@[simp] theorem ports_take_inQueue : p.take.inQueue = p.inQueue.tail := rfl
@[simp] theorem ports_take_inClosed : p.take.inClosed = p.inClosed := rfl
@[simp] theorem ports_take_outReady : p.take.outReady = p.outReady := rfl
@[simp] theorem ports_take_outQueue : p.take.outQueue = p.outQueue := rfl
@[simp] theorem ports_take_inTake : p.take.inTake = true := rfl
@[simp] theorem ports_take_outPut : p.take.outPut = false := rfl

@[simp] theorem ports_put_inQueue : (p.put v).inQueue = p.inQueue := rfl
@[simp] theorem ports_put_inClosed : (p.put v).inClosed = p.inClosed := rfl
@[simp] theorem ports_put_outReady : (p.put v).outReady = p.outReady := rfl
@[simp] theorem ports_put_outQueue : (p.put v).outQueue = p.outQueue ++ [v] := rfl
@[simp] theorem ports_put_inTake : (p.put v).inTake = false := rfl
@[simp] theorem ports_put_outPut : (p.put v).outPut = true := rfl

end

end Sys2Proof.Machine
end

