-- ==== Sys2Proof/Laws/Step.lean ====
section
/-! SUPPORT. Everything an instruction and a step can do, once: invariants and frames are derived
from these lemmas and not by unfolding the instructions. -/

namespace Sys2Proof.Machine

open Host (Outcome)

/-- The ends an instruction can have. Each commit names the operands it committed with. -/
inductive Ends (s : State) : Instr → State → Prop where
  | fault (i c) : Ends s i (raise s c)
  | awaitIn (m) (h : inData s = none) : Ends s (.inp m) (suspend s .awaitIn)
  | awaitOut (m) (h : s.ports.outReady = false) : Ends s (.out m) (suspend s .awaitOut)
  | store (i ea v) (h : (∃ a b c, (i = .add a b c ∨ i = .mul a b c ∨ i = .lt a b c ∨ i = .eq a b c) ∧ dest s 2 c = .ok ea))
      (hv : representable s.params v = true ∨ v = 0 ∨ v = 1) (hr : representable s.params (s.ip + 4) = true)
      (hc : HasRoom s ea) : Ends s i (commitWrite s ea v (s.ip + 4))
  | input (m ea v) (h : dest s 0 m = .ok ea) (hv : inData s = some v)
      (hr : representable s.params (s.ip + 2) = true) (hc : HasRoom s ea) :
      Ends s (.inp m) (commitInput s ea v (s.ip + 2))
  | output (m v) (h : value s 0 m = .ok v) (hr : representable s.params (s.ip + 2) = true)
      (ho : s.ports.outReady = true) : Ends s (.out m) (commitOutput s v (s.ip + 2))
  | jump (i t) (a b) (hi : i = .jt a b ∨ i = .jf a b)
      (h : value s 1 b = .ok t ∨ (t = s.ip + 3 ∧ representable s.params t = true)) : Ends s i (commit s t)
  | base (m r) (hr : representable s.params r = true) (hn : representable s.params (s.ip + 2) = true) :
      Ends s (.arb m) (commitBase s r (s.ip + 2))
  | halt : Ends s .halt (commitHalt s)

theorem settle_next {s t : State} {r : Except FaultCode State} (h : settle s r = .next t) :
    r = .ok t ∨ ∃ c, r = .error c ∧ t = raise s c := by
  cases r with
  | ok u => left; simpa [settle] using h
  | error c => right; exact ⟨c, rfl, by simpa [settle, eq_comm] using h⟩

theorem arithmetic_ok {f : Int → Int → Int} {a b c : Mode} {s t : State} :
    arithmetic f a b c s = .ok t ↔ ∃ v0 v1 ea, value s 0 a = .ok v0 ∧ value s 1 b = .ok v1 ∧ dest s 2 c = .ok ea ∧
      representable s.params (f v0 v1) = true ∧ representable s.params (s.ip + 4) = true ∧ HasRoom s ea ∧
      t = commitWrite s ea (f v0 v1) (s.ip + 4) := by
  simp only [arithmetic, bind_ok, checkRange_ok, pure, Except.pure, Except.ok.injEq]
  constructor
  · rintro ⟨v0, h0, v1, h1, ea, h2, r, ⟨hr, rfl⟩, n, ⟨hn, rfl⟩, _, hc, rfl⟩
    exact ⟨v0, v1, ea, h0, h1, h2, hr, hn, checkCapacity_ok.mp hc, rfl⟩
  · rintro ⟨v0, v1, ea, h0, h1, h2, hr, hn, hc, rfl⟩
    exact ⟨v0, h0, v1, h1, ea, h2, _, ⟨hr, rfl⟩, _, ⟨hn, rfl⟩, (), checkCapacity_ok.mpr hc, rfl⟩

theorem comparison_ok {f : Int → Int → Bool} {a b c : Mode} {s t : State} :
    comparison f a b c s = .ok t ↔ ∃ v0 v1 ea, value s 0 a = .ok v0 ∧ value s 1 b = .ok v1 ∧ dest s 2 c = .ok ea ∧
      representable s.params (s.ip + 4) = true ∧ HasRoom s ea ∧
      t = commitWrite s ea (truthWord (f v0 v1)) (s.ip + 4) := by
  simp only [comparison, bind_ok, checkRange_ok, pure, Except.pure, Except.ok.injEq]
  constructor
  · rintro ⟨v0, h0, v1, h1, ea, h2, n, ⟨hn, rfl⟩, _, hc, rfl⟩
    exact ⟨v0, v1, ea, h0, h1, h2, hn, checkCapacity_ok.mp hc, rfl⟩
  · rintro ⟨v0, v1, ea, h0, h1, h2, hn, hc, rfl⟩
    exact ⟨v0, h0, v1, h1, ea, h2, _, ⟨hn, rfl⟩, (), checkCapacity_ok.mpr hc, rfl⟩

theorem jump_ok {taken : Int → Bool} {a b : Mode} {s t : State} :
    jump taken a b s = .ok t ↔ ∃ v0 v1, value s 0 a = .ok v0 ∧ value s 1 b = .ok v1 ∧
      ((taken v0 = true ∧ t = commit s v1) ∨
       (taken v0 = false ∧ representable s.params (s.ip + 3) = true ∧ t = commit s (s.ip + 3))) := by
  simp only [jump, bind_ok]
  constructor
  · rintro ⟨v0, h0, v1, h1, h⟩
    refine ⟨v0, v1, h0, h1, ?_⟩
    split at h
    · exact .inl ⟨‹_›, by simpa [pure, Except.pure, eq_comm] using h⟩
    · rename_i hnt
      obtain ⟨n, hn, h⟩ := bind_ok.mp h
      obtain ⟨hr, rfl⟩ := checkRange_ok.mp hn
      exact .inr ⟨by simpa using hnt, hr, by simpa [pure, Except.pure, eq_comm] using h⟩
  · rintro ⟨v0, v1, h0, h1, h⟩
    refine ⟨v0, h0, v1, h1, ?_⟩
    rcases h with ⟨ht, rfl⟩ | ⟨ht, hr, rfl⟩
    · simp [ht, pure, Except.pure]
    · simp [ht, pure, Except.pure, bind, Except.bind, checkRange, hr]

theorem execIn_settles (a : Mode) (s : State) : ∃ r, execIn a s = settle s r ∧ ∀ t, r = .ok t →
    (inData s = none ∧ t = suspend s .awaitIn) ∨ ∃ ea v, dest s 0 a = .ok ea ∧ inData s = some v ∧
      representable s.params (s.ip + 2) = true ∧ HasRoom s ea ∧ t = commitInput s ea v (s.ip + 2) := by
  refine ⟨_, rfl, fun t h => ?_⟩
  obtain ⟨ea, he, h⟩ := bind_ok.mp h
  obtain ⟨n, hn, h⟩ := bind_ok.mp h
  obtain ⟨u, hc, h⟩ := bind_ok.mp h
  obtain ⟨hr, rfl⟩ := checkRange_ok.mp hn
  cases hd : inData s with
  | none => exact .inl ⟨rfl, by simpa [hd, pure, Except.pure, eq_comm] using h⟩
  | some v => exact .inr ⟨ea, v, he, rfl, hr, checkCapacity_ok.mp hc, by simpa [hd, pure, Except.pure, eq_comm] using h⟩

theorem execOut_settles (a : Mode) (s : State) : ∃ r, execOut a s = settle s r ∧ ∀ t, r = .ok t →
    (s.ports.outReady = false ∧ t = suspend s .awaitOut) ∨ ∃ v, value s 0 a = .ok v ∧ s.ports.outReady = true ∧
      representable s.params (s.ip + 2) = true ∧ t = commitOutput s v (s.ip + 2) := by
  refine ⟨_, rfl, fun t h => ?_⟩
  obtain ⟨v, hv, h⟩ := bind_ok.mp h
  obtain ⟨n, hn, h⟩ := bind_ok.mp h
  obtain ⟨hr, rfl⟩ := checkRange_ok.mp hn
  cases hd : s.ports.outReady with
  | false => exact .inl ⟨rfl, by simpa [hd, pure, Except.pure, eq_comm] using h⟩
  | true => exact .inr ⟨v, hv, rfl, hr, by simpa [hd, pure, Except.pure, eq_comm] using h⟩

theorem execArb_settles (a : Mode) (s : State) : ∃ r, execArb a s = settle s r ∧ ∀ t, r = .ok t →
    ∃ v, value s 0 a = .ok v ∧ representable s.params (s.rb + v) = true ∧
      representable s.params (s.ip + 2) = true ∧ t = commitBase s (s.rb + v) (s.ip + 2) := by
  refine ⟨_, rfl, fun t h => ?_⟩
  obtain ⟨v, hv, h⟩ := bind_ok.mp h
  obtain ⟨r, h1, h⟩ := bind_ok.mp h
  obtain ⟨n, h2, h⟩ := bind_ok.mp h
  obtain ⟨hr, rfl⟩ := checkRange_ok.mp h1
  obtain ⟨hn, rfl⟩ := checkRange_ok.mp h2
  exact ⟨v, hv, hr, hn, by simpa [pure, Except.pure, eq_comm] using h⟩

theorem truthWord_cases (b : Bool) : truthWord b = 0 ∨ truthWord b = 1 := by
  cases b <;> simp [truthWord]

theorem arithmetic_ends {f : Int → Int → Int} {i : Instr} {a b c : Mode} {s t : State}
    (hi : i = .add a b c ∨ i = .mul a b c ∨ i = .lt a b c ∨ i = .eq a b c)
    (h : settle s (arithmetic f a b c s) = .next t) : Ends s i t := by
  rcases settle_next h with h | ⟨c, -, rfl⟩
  · obtain ⟨v0, v1, ea, -, -, h2, hr, hn, hc, rfl⟩ := arithmetic_ok.mp h
    exact .store i ea _ ⟨a, b, c, hi, h2⟩ (.inl hr) hn hc
  · exact .fault _ _

theorem comparison_ends {f : Int → Int → Bool} {i : Instr} {a b c : Mode} {s t : State}
    (hi : i = .add a b c ∨ i = .mul a b c ∨ i = .lt a b c ∨ i = .eq a b c)
    (h : settle s (comparison f a b c s) = .next t) : Ends s i t := by
  rcases settle_next h with h | ⟨c, -, rfl⟩
  · obtain ⟨v0, v1, ea, -, -, h2, hn, hc, rfl⟩ := comparison_ok.mp h
    exact .store i ea _ ⟨a, b, c, hi, h2⟩ (.inr (truthWord_cases _)) hn hc
  · exact .fault _ _

theorem jump_ends {taken : Int → Bool} {i : Instr} {a b : Mode} {s t : State} (hi : i = .jt a b ∨ i = .jf a b)
    (h : settle s (jump taken a b s) = .next t) : Ends s i t := by
  rcases settle_next h with h | ⟨c, -, rfl⟩
  · obtain ⟨v0, v1, -, h1, ⟨-, rfl⟩ | ⟨-, hr, rfl⟩⟩ := jump_ok.mp h
    · exact .jump i v1 a b hi (.inl h1)
    · exact .jump i _ a b hi (.inr ⟨rfl, hr⟩)
  · exact .fault _ _

/-- Everything an instruction can do. -/
theorem exec_ends {i : Instr} {s t : State} (h : exec i s = .next t) : Ends s i t := by
  cases i with
  | add a b c => exact arithmetic_ends (.inl rfl) h
  | mul a b c => exact arithmetic_ends (.inr (.inl rfl)) h
  | lt a b c => exact comparison_ends (.inr (.inr (.inl rfl))) h
  | eq a b c => exact comparison_ends (.inr (.inr (.inr rfl))) h
  | jt a b => exact jump_ends (.inl rfl) h
  | jf a b => exact jump_ends (.inr rfl) h
  | inp a =>
    obtain ⟨r, hr, hok⟩ := execIn_settles a s
    rcases settle_next (hr.symm.trans h) with h | ⟨c, -, rfl⟩
    · rcases hok t h with ⟨hd, rfl⟩ | ⟨ea, v, he, hd, hn, hc, rfl⟩
      · exact .awaitIn a hd
      · exact .input a ea v he hd hn hc
    · exact .fault _ _
  | out a =>
    obtain ⟨r, hr, hok⟩ := execOut_settles a s
    rcases settle_next (hr.symm.trans h) with h | ⟨c, -, rfl⟩
    · rcases hok t h with ⟨ho, rfl⟩ | ⟨v, hv, ho, hn, rfl⟩
      · exact .awaitOut a ho
      · exact .output a v hv hn ho
    · exact .fault _ _
  | arb a =>
    obtain ⟨r, hr, hok⟩ := execArb_settles a s
    rcases settle_next (hr.symm.trans h) with h | ⟨c, -, rfl⟩
    · obtain ⟨v, hv, hr, hn, rfl⟩ := hok t h
      exact .base a _ hr hn
    · exact .fault _ _
  | halt =>
    have : t = commitHalt s := by
      have h2 : Outcome.next (commitHalt s) = Outcome.next t := h
      simpa [eq_comm] using h2
    exact this ▸ .halt

theorem fetch_eq (s : State) :
    fetch s = if s.ip < 0 then .error .negativeAddress else .ok (s.mem.read s.ip.toNat) := by
  unfold fetch memRead checkAddress
  split <;> rfl

/-- Everything a step can do: nothing where none is enabled; otherwise a fault at the fetch or the
decoder, or the decoded instruction. -/
theorem step_cases {s t : State} (h : step s = .next t) :
    (enabled s = false ∧ t = idle s) ∨
    (enabled s = true ∧ s.ip < 0 ∧ t = raise s .negativeAddress) ∨
    (enabled s = true ∧ 0 ≤ s.ip ∧ ∃ c, decode (s.mem.read s.ip.toNat) = .error c ∧ t = raise s c) ∨
    (enabled s = true ∧ 0 ≤ s.ip ∧ ∃ i, decode (s.mem.read s.ip.toNat) = .ok i ∧ exec i s = .next t) := by
  unfold step at h
  cases he : enabled s with
  | false => exact .inl ⟨rfl, by simpa [he, eq_comm] using h⟩
  | true =>
    by_cases hip : s.ip < 0
    · exact .inr (.inl ⟨rfl, hip, by simpa [he, fetch_eq, hip, eq_comm] using h⟩)
    · have h0 : 0 ≤ s.ip := Int.not_lt.mp hip
      cases hd : decode (s.mem.read s.ip.toNat) with
      | error c => exact .inr (.inr (.inl ⟨rfl, h0, c, rfl, by simpa [he, fetch_eq, hip, hd, eq_comm] using h⟩))
      | ok i => exact .inr (.inr (.inr ⟨rfl, h0, i, rfl, by simpa [he, fetch_eq, hip, hd] using h⟩))

/-- A step either is none, or takes a fault, or is one of the ends of the decoded instruction. -/
theorem step_ends {s t : State} (h : step s = .next t) :
    (enabled s = false ∧ t = idle s) ∨ (enabled s = true ∧ ∃ i, Ends s i t) := by
  rcases step_cases h with h | ⟨he, -, rfl⟩ | ⟨he, -, c, -, rfl⟩ | ⟨he, -, i, -, h⟩
  · exact .inl h
  · exact .inr ⟨he, .halt, .fault _ _⟩
  · exact .inr ⟨he, .halt, .fault _ _⟩
  · exact .inr ⟨he, i, exec_ends h⟩

end Sys2Proof.Machine
end

