-- ==== Sys2Proof/Laws/Host.lean ====
section
/-! SUPPORT. Everything the host's and the environment's moves can do, once. -/

namespace Sys2Proof.Machine

/-- A poke that goes through wrote one word, in a status that allows it, where there was room. -/
theorem poke_next {s t : State} {a : Nat} {v : Int} (h : poke s a v = .next t) :
    t = { s with mem := s.mem.write s.n a v } ∧ mayPoke s = true ∧ representable s.params v = true ∧ HasRoom s a := by
  unfold poke at h
  split at h
  · simp at h
  split at h
  · simp at h
  split at h
  · simp at h
  simp at h
  rename_i h1 h2 h3
  exact ⟨h.symm, by simpa using h1, by simpa using h2, sparseFull_eq_false.mp (by simpa using h3)⟩

/-- A value provided joins the end of those waiting, at an input that is open. -/
theorem provide_next {s t : State} {v : Int} (h : provide s v = .next t) :
    t = { s with ports := { s.ports with inQueue := s.ports.inQueue ++ [v] } } ∧
      representable s.params v = true ∧ s.ports.inClosed = false := by
  unfold provide at h
  split at h
  · simp at h
  rename_i hc
  split at h
  · simp at h
    exact ⟨h.symm, by assumption, by simpa using hc⟩
  · simp at h

/-- A move at a port changes the ports at most, and no pulse. -/
theorem portAct_next {s t : State} {m : PortMove} (h : portAct s m = .next t) :
    t = { s with ports := t.ports } ∧ t.ports.inTake = s.ports.inTake ∧ t.ports.outPut = s.ports.outPut := by
  cases m with
  | provide v =>
    obtain ⟨rfl, -⟩ := provide_next h
    exact ⟨rfl, rfl, rfl⟩
  | close => cases h; exact ⟨rfl, rfl, rfl⟩
  | ready b => cases h; exact ⟨rfl, rfl, rfl⟩
  | drain => cases h; exact ⟨rfl, rfl, rfl⟩

/-- Everything a move can do: the run command, one word of memory poked, or the ports. -/
theorem act_next {s t : State} {m : Move} (h : act s m = .next t) :
    (m = .run ∧ t = runCommand s) ∨
    (∃ a v, m = .poke a v ∧ t = { s with mem := s.mem.write s.n a v } ∧ mayPoke s = true ∧
      representable s.params v = true ∧ HasRoom s a) ∨
    (∃ p, m = .port p ∧ portAct s p = .next t) := by
  cases m with
  | run => cases h; exact .inl ⟨rfl, rfl⟩
  | poke a v =>
    have hp : poke s a v = .next t := h
    exact .inr (.inl ⟨a, v, rfl, poke_next hp⟩)
  | port p => exact .inr (.inr ⟨p, rfl, h⟩)

/-- The environment's moves at a step boundary change the ports at most. -/
theorem environment_eq (ms : List PortMove) (s : State) :
    environment ms s = { s with ports := (environment ms s).ports } := by
  induction ms generalizing s with
  | nil => rfl
  | cons m ms ih =>
    unfold environment
    split
    · rename_i t h
      rw [ih t, (portAct_next h).1]
    · exact ih s
    · exact ih s

/-- What a construction that goes through answers. -/
theorem newEngine_next {p : Params} {c : Cfg} {image : List Int} {s : State} (h : newEngine p c image = .next s) :
    paramsOk p = true ∧ (∀ v ∈ image, representable p v = true) ∧
      s = { State.reset with mem := Memory.ofImage image, n := image.length, cfg := c, params := p } := by
  unfold newEngine at h
  split at h
  · simp at h
  rename_i h1
  split at h
  · simp at h
    rename_i h2
    exact ⟨by simpa using h1, by simpa using h2, h.symm⟩
  · simp at h

/-- The run command changes the status at most. -/
theorem runCommand_cases (s : State) :
    (runCommand s = { s with status := .running } ∧ (s.status = .ready ∨ s.status = .yielded)) ∨
    (runCommand s = s ∧ s.status ≠ .ready ∧ s.status ≠ .yielded) := by
  cases hs : s.status <;> simp [runCommand, hs]

/-- The loop of run_until_output_or_halt takes no step where none is enabled. -/
theorem runLoop_stopped (env : Nat → List PortMove) (k : Nat) {s : State} (h : enabled s = false) :
    runLoop env k s = some (s, []) := by
  cases k <;> simp [runLoop, h]

/-- A step where none is enabled. -/
theorem step_idle {s t : State} (h : enabled s = false) (hs : step s = .next t) : t = idle s := by
  rcases step_ends hs with ⟨-, rfl⟩ | ⟨he, -⟩
  · rfl
  · simp [h] at he

/-- The word read back from an image, counting from `k`. -/
theorem lookup_imageCells (k : Nat) (image : List Int) (a : Nat) :
    lookup (imageCells k image) a = if a < k then 0 else image[a - k]?.getD 0 := by
  induction image generalizing k with
  | nil => simp [imageCells, lookup]
  | cons v t ih =>
    by_cases hv : v = 0
    · simp only [imageCells, hv, if_true, ih]
      by_cases h1 : a < k
      · simp [h1, show a < k + 1 by omega]
      · by_cases h2 : a = k
        · subst h2
          simp
        · simp [h1, show ¬ a < k + 1 by omega, show a - k = (a - (k + 1)) + 1 by omega]
    · simp only [imageCells, hv, if_false, lookup, ih]
      by_cases h2 : k = a
      · subst h2
        simp
      · by_cases h1 : a < k
        · simp [h1, h2, show a < k + 1 by omega]
        · simp [h1, h2, show ¬ a < k + 1 by omega, show a - k = (a - (k + 1)) + 1 by omega]

end Sys2Proof.Machine
end

