-- ==== Sys2Proof/Laws/PerInstr.lean ====
section
/-! SUPPORT. The family of statements made per instruction: the shape of an instruction's slots. -/

namespace Sys2Proof.Laws.SlotShape

/-- The decoder's outputs agree with one another (30_encoding.md R86, R94, R98): as many modes as
slots, a width of 1 + arity from 1 to 4 words, and no slot before the last is a destination
(40_sequencer.md R116). -/
def Statement (i : Instr) : Prop :=
  i.modes.length = i.arity ∧ i.width = 1 + i.arity ∧ i.width ≤ 4 ∧
    ∀ k, k + 1 < i.arity → i.kinds[k]? = some SlotKind.src

theorem shape_of_kinds {i : Instr} {ks : List SlotKind} (hk : slotKinds i.opcode = some ks)
    (hm : i.modes.length = ks.length) (hlen : ks.length ≤ 3)
    (hsrc : ∀ k, k + 1 < ks.length → ks[k]? = some SlotKind.src) : Statement i := by
  have hkinds : i.kinds = ks := by simp [Instr.kinds, hk]
  refine ⟨by simp [Instr.arity, hkinds, hm], rfl, ?_, ?_⟩
  · simp only [Instr.width, Instr.arity, hkinds]
    omega
  · simpa [Instr.arity, hkinds] using hsrc

theorem srcs_of_three : ∀ k, k + 1 < [SlotKind.src, SlotKind.src, SlotKind.dst].length →
    [SlotKind.src, SlotKind.src, SlotKind.dst][k]? = some SlotKind.src
  | 0, _ => rfl
  | 1, _ => rfl
  | k + 2, h => by simp only [List.length_cons, List.length_nil] at h; omega

theorem srcs_of_two : ∀ k, k + 1 < [SlotKind.src, SlotKind.src].length →
    [SlotKind.src, SlotKind.src][k]? = some SlotKind.src
  | 0, _ => rfl
  | k + 1, h => by simp at h

theorem add (a b c : Mode) : Statement (.add a b c) := shape_of_kinds rfl rfl (by decide) srcs_of_three
theorem mul (a b c : Mode) : Statement (.mul a b c) := shape_of_kinds rfl rfl (by decide) srcs_of_three
theorem inp (a : Mode) : Statement (.inp a) := shape_of_kinds rfl rfl (by decide) (fun k h => by simp at h)
theorem out (a : Mode) : Statement (.out a) := shape_of_kinds rfl rfl (by decide) (fun k h => by simp at h)
theorem jt (a b : Mode) : Statement (.jt a b) := shape_of_kinds rfl rfl (by decide) srcs_of_two
theorem jf (a b : Mode) : Statement (.jf a b) := shape_of_kinds rfl rfl (by decide) srcs_of_two
theorem lt (a b c : Mode) : Statement (.lt a b c) := shape_of_kinds rfl rfl (by decide) srcs_of_three
theorem eq (a b c : Mode) : Statement (.eq a b c) := shape_of_kinds rfl rfl (by decide) srcs_of_three
theorem arb (a : Mode) : Statement (.arb a) := shape_of_kinds rfl rfl (by decide) (fun k h => by simp at h)
theorem halt : Statement .halt := shape_of_kinds rfl rfl (by decide) (fun k h => by simp at h)

end Sys2Proof.Laws.SlotShape
end

