-- ==== Sys2Proof/Tests/Slice0.lean ====
section
/-! SUPPORT. Tests of one step or one decoding each, with results taken from 95_test_vectors.md or
worked out from the rule cited; and, for every statement that has hypotheses, a witness that meets
them all. -/

namespace Sys2Proof.Tests

open Sys2Proof Sys2Proof.Machine

/-! ### Helpers -/

/-- An engine built from an image with the default parameters, and started. -/
def engine (image : List Int) : State :=
  { State.reset with mem := Memory.ofImage image, n := image.length, status := .running }

/-- The same with WORD_BITS = 64. -/
def engine64 (image : List Int) : State :=
  { engine image with params := { wordBits := some 64, sparseCapacity := none } }

/-- The same with a finite SPARSE_CAPACITY. -/
def engineCap (k : Nat) (image : List Int) : State :=
  { engine image with params := { wordBits := none, sparseCapacity := some k } }

/-- With values waiting at the input port. -/
def fed (s : State) (vs : List Int) : State := { s with ports := { s.ports with inQueue := vs } }

/-- The state of an outcome that is a next state. -/
def nextOf : Host.Outcome State Fault Refusal → Option State
  | .next t => some t
  | .fault _ => none
  | .refused _ => none

/-- The refusal of an outcome. -/
def refusalOf : Host.Outcome State Fault Refusal → Option Refusal
  | .next _ => none
  | .fault _ => none
  | .refused r => some r

/-- Status, ip, rb and one word of memory after one step. -/
def look (s : State) (a : Nat) : Option (Status × Int × Int × Int) :=
  (nextOf (step s)).map (fun t => (t.status, t.ip, t.rb, t.mem.read a))

/-- The fault record after one step, and the word at an address. -/
def faultAfter (s : State) (a : Nat) : Option (Option FaultRecord × Int) :=
  (nextOf (step s)).map (fun t => (t.fault, t.mem.read a))

/-! ### Well-formedness: an ill-formed term for each check -/

theorem test_wf_add_refuses : (Instr.add .position .position .immediate).wf = false := by decide
theorem test_wf_mul_refuses : (Instr.mul .relative .immediate .immediate).wf = false := by decide
theorem test_wf_in_refuses : (Instr.inp .immediate).wf = false := by decide
theorem test_wf_lt_refuses : (Instr.lt .position .position .immediate).wf = false := by decide
theorem test_wf_eq_refuses : (Instr.eq .position .position .immediate).wf = false := by decide
theorem test_wf_accepts :
    (Instr.add .immediate .immediate .relative).wf = true ∧ (Instr.inp .position).wf = true ∧
      (Instr.out .immediate).wf = true ∧ (Instr.jt .immediate .immediate).wf = true ∧ Instr.halt.wf = true := by
  decide

/-! ### Decoding: words written out digit by digit from 30_encoding.md R82 and R86 -/

/-- 95 L1-1, R85. -/
theorem test_decode_mul : decode 1002 = .ok (.mul .position .immediate .position) := by decide
/-- 95 L1-2, R102. -/
theorem test_decode_add : decode 1101 = .ok (.add .immediate .immediate .position) := by decide
/-- 95 P3: every slot relative. -/
theorem test_decode_add_relative : decode 22201 = .ok (.add .relative .relative .relative) := by decide
theorem test_decode_in : decode 203 = .ok (.inp .relative) := by decide
theorem test_decode_out : decode 104 = .ok (.out .immediate) := by decide
theorem test_decode_jt : decode 1005 = .ok (.jt .position .immediate) := by decide
theorem test_decode_jf : decode 2106 = .ok (.jf .immediate .relative) := by decide
theorem test_decode_lt : decode 20107 = .ok (.lt .immediate .position .relative) := by decide
theorem test_decode_eq : decode 1208 = .ok (.eq .relative .immediate .position) := by decide
theorem test_decode_arb : decode 109 = .ok (.arb .immediate) := by decide
theorem test_decode_halt : decode 99 = .ok .halt := by decide
/-- 95 D-2 to D-9. -/
theorem test_decode_faults :
    decode 100 = .error .unknownOpcode ∧ decode 10 = .error .unknownOpcode ∧ decode 98 = .error .unknownOpcode ∧
      decode (-99) = .error .negativeOpcodeWord ∧ decode 301 = .error .invalidMode ∧
      decode 30001 = .error .invalidMode ∧ decode 10301 = .error .invalidMode ∧
      decode 11101 = .error .invalidDestinationMode ∧ decode 103 = .error .invalidDestinationMode := by
  decide
/-- 95 D-12, D-14. -/
theorem test_decode_ignores_unused_digits :
    decode 101101 = .ok (.add .immediate .immediate .position) ∧ decode 199 = .ok .halt ∧
      decode 999 = .ok .halt ∧ decode 21099 = .ok .halt := by
  decide
/-- R99: `MUL [4], #3, [4]` is 1002,4,3,4. -/
theorem test_assemble_mul : assemble (.mul .position .immediate .position) [4, 3, 4] = [1002, 4, 3, 4] := by decide
/-- R100: 1105, 105 and 2105 for JMP; MOV is ADD with #0. -/
theorem test_assemble_abbreviations :
    asmJmp .immediate 2 = [1105, 1, 2] ∧ asmJmp .position 2 = [105, 1, 2] ∧ asmJmp .relative 2 = [2105, 1, 2] ∧
      asmMov .position 7 .position 8 = [1001, 7, 0, 8] ∧ asmData (-5) = [-5] := by
  decide
theorem test_decodeTableWord :
    decodeTableWord 8 4 = some (.out .position) ∧ decodeTableWord 8 99 = some .halt ∧ decodeTableWord 8 0 = none := by
  decide

/-! ### One step of each instruction -/

/-- 95 A-4: one cell is both sources and the destination. -/
theorem test_add_same_cell : look (engine [1, 5, 5, 5, 99, 21]) 5 = some (.running, 4, 0, 42) := by decide
/-- 95 A-6: 2^63 is no 64-bit word; nothing is written. -/
theorem test_add_overflow :
    faultAfter (engine64 [1101, 4611686018427387904, 4611686018427387904, 5, 99, 0]) 5 =
      some (some ⟨.overflow, 0, some 1101⟩, 0) := by
  decide
/-- 95 L1-3. -/
theorem test_mul_mixed_modes : look (engine [1002, 4, 3, 4, 33]) 4 = some (.running, 4, 0, 99) := by decide
/-- 95 A-2: writing 0 over 1. -/
theorem test_mul_by_zero : look (engine [1102, 0, -7, 5, 99, 1]) 5 = some (.running, 4, 0, 0) := by decide
/-- 95 I-3: the input lands on its own opcode word, and ip still advances by 2. -/
theorem test_in_own_word : look (fed (engine [3, 0, 99]) [99]) 0 = some (.running, 2, 0, 99) := by decide
/-- 95 I-5: the destination is checked before the port. -/
theorem test_in_negative_destination :
    faultAfter (engine [3, -1, 99]) 0 = some (some ⟨.negativeAddress, 0, some 3⟩, 3) := by
  decide
/-- 95 I-9: with yield_on_output the engine stops after the output. -/
theorem test_out_yields :
    (nextOf (step { engine [104, 1, 104, 2, 99] with cfg := { yieldOnOutput := true } })).map
      (fun t => (t.status, t.ip, t.outData, t.ports.outPut)) = some (.yielded, 2, some 1, true) := by
  decide
/-- 95 I-8: a word never written puts 0. -/
theorem test_out_unwritten :
    (nextOf (step (engine [4, 50, 99]))).map (fun t => (t.status, t.ports.outQueue)) = some (.running, [0]) := by
  decide
/-- 95 J-5: a negative condition is true. -/
theorem test_jt_negative_condition : look (engine [1105, -1, 4, 0, 99]) 0 = some (.running, 4, 0, 1105) := by decide
/-- 95 J-2: 0 falls through. -/
theorem test_jt_zero : look (engine [1105, 0, 7, 104]) 0 = some (.running, 3, 0, 1105) := by decide
/-- 95 J-7: a negative target is committed. -/
theorem test_jf_negative_target : look (engine [1106, 0, -5]) 0 = some (.running, -5, 0, 1106) := by decide
/-- 95 J-4. -/
theorem test_jf_not_taken : look (engine [1106, 5, 7, 104]) 0 = some (.running, 3, 0, 1106) := by decide
/-- 95 C-1: the comparison is signed. -/
theorem test_lt_signed : look (engine [1107, -1, 0, 5, 99, 7]) 5 = some (.running, 4, 0, 1) := by decide
/-- 95 C-2: equal is not less. -/
theorem test_lt_equal : look (engine [1107, 5, 5, 5, 99, 7]) 5 = some (.running, 4, 0, 0) := by decide
/-- 95 C-3. -/
theorem test_eq_equal : look (engine [1108, 5, 5, 5, 99, 7]) 5 = some (.running, 4, 0, 1) := by decide
/-- 95 C-4. -/
theorem test_eq_sign : look (engine [1108, -5, 5, 5, 99, 7]) 5 = some (.running, 4, 0, 0) := by decide
/-- 95 R-4, second instruction: the slot is read with the old base, `M[6] = 0`. -/
theorem test_arb_reads_with_the_old_base :
    look { engine [209, 3, 209, 3, 99] with ip := 2, rb := 3 } 0 = some (.running, 4, 3, 209) := by
  decide
/-- 95 R-6, second instruction: the new base is no 64-bit word. -/
theorem test_arb_overflow :
    faultAfter { engine64 [109, 9223372036854775807, 109, 1, 99] with ip := 2, rb := 9223372036854775807 } 0 =
      some (some ⟨.overflow, 2, some 109⟩, 109) := by
  decide
/-- 95 D-14. -/
theorem test_halt_keeps_ip : look (engine [21099]) 0 = some (.halted, 0, 0, 21099) := by decide

/-! ### Faults, capacity, suspension, the host, a network -/

/-- 95 J-6, second step: the fetch at a negative ip records no word. -/
theorem test_fetch_negative :
    faultAfter { engine [1105, 1, -1] with ip := -1 } 0 = some (some ⟨.negativeAddress, -1, none⟩, 1105) := by
  decide
/-- 95 D-16: the empty image. -/
theorem test_empty_image : faultAfter (engine []) 0 = some (some ⟨.unknownOpcode, 0, some 0⟩, 0) := by decide
/-- 95 A-12. -/
theorem test_capacity_zero :
    faultAfter (engineCap 0 [1101, 1, 1, 1000, 99]) 1000 = some (some ⟨.capacityExceeded, 0, some 1101⟩, 0) := by
  decide
/-- 95 I-1: an input with no value. -/
theorem test_in_waits : look (engine [3, 0, 99]) 0 = some (.awaitIn, 0, 0, 3) := by decide
/-- 95 I-11: an output that is not accepted. -/
theorem test_out_waits :
    (nextOf (step (driveOutReady (engine [104, 7, 99]) false))).map (fun t => (t.status, t.ip, t.outData)) =
      some (.awaitOut, 0, none) := by
  decide
/-- 95 L1-9: a poke while READY. -/
theorem test_poke_ready :
    (nextOf (poke { engine [1, 0, 0, 0, 99] with status := .ready } 0 2)).map (fun t => (t.status, peek t 0)) =
      some (.ready, 2) := by
  decide
/-- 95 H-3: no poke in AWAIT_IN. -/
theorem test_poke_waiting :
    refusalOf (poke { engine [3, 0, 99] with status := .awaitIn } 0 1) = some .pokeWhileRunning := by
  decide
/-- 10_state.md R32: out_data is not read while none. -/
theorem test_out_data_none : readOutData (engine [99]) = .error .noOutputData := rfl
/-- 95 H-1. -/
theorem test_call_on_halted :
    (runUntilOutputOrHalt (fun _ => []) 0 { engine [99, 1, 2] with status := .halted }).map
      (fun r => (report r.1, r.2)) = some (some .halted, []) := by
  decide
/-- 42_io.md R159: a closed input is given no further value. -/
theorem test_provide_closed : refusalOf (provide (closeInput (engine [3, 0, 99])) 5) = some .inputClosed := by decide
/-- 60_exceptions.md R237: the consumer's buffer fills after the first output of a call, which then
returns AwaitingOutput with one value put. -/
theorem test_call_port_changes :
    (runUntilOutputOrHalt (fun _ => [.ready false]) 5 (engine [104, 1, 104, 2, 99])).map
      (fun r => (report r.1, r.2)) = some (some .awaitingOutput, [1]) := by
  decide
/-- Log entry 3: an instruction placed at the fetch runs as the first one after reset. -/
theorem test_with_fetch_word :
    (nextOf (step (State.reset.withFetchWord 8 99))).map (fun t => (t.status, t.ip)) = some (.halted, 0) ∧
      (nextOf (step (State.reset.withFetchWord 8 5))).map (fun t => (t.status, t.ip)) = some (.running, 5) := by
  decide

/-- 95 P6: two identity pipes in a ring, the queue from B to A seeded with 17. -/
def ring : Network :=
  { engines := [engine [3, 0, 4, 0, 99], engine [3, 0, 4, 0, 99]]
    queues := [{ items := [], bound := none, writer := 0, reader := 1 },
      { items := [17], bound := none, writer := 1, reader := 0 }] }

/-- 95 P6: A's first step takes the 17; B's would suspend. -/
theorem test_ring_first_steps :
    (ring.step 0).map (fun net => (net.queues.map Queue.items, net.engines.map (fun e => (e.ip, e.mem.read 0)))) =
        some ([[], []], [(2, 17), (0, 3)]) ∧
      (ring.step 1).map (fun net => (net.queues.map Queue.items, net.engines.map State.status)) =
        some ([[], [17]], [.running, .awaitIn]) ∧ ring.wired = true := by
  decide

/-- 20_memory.md R61, 70_reset_and_hazards.md R267: in a network too a RUNNING engine is not poked;
and a port that a queue drives is given no value by the host. -/
theorem test_ring_host_guards :
    ring.move (.host 0 (.poke 0 99)) = none ∧ ring.move (.host 0 (.port (.provide 5))) = none ∧
      ring.move (.supply 0 5) = none ∧ (ring.move (.host 0 .run)).isSome = true := by
  decide

/-- 60_exceptions.md R245: a bounded queue that is full blocks its writer. -/
theorem test_full_queue_blocks :
    (({ engines := [engine [104, 7, 99]]
        queues := [{ items := [1], bound := some 1, writer := 0, reader := 9 }] } : Network).step 0).map
      (fun net => (net.engines.map State.status, net.queues.map Queue.items)) = some ([.awaitOut], [[1]]) := by
  decide

/-! ### Witnesses: a state and operands that meet the hypotheses of each statement, at the ends of
the ranges its clauses divide -/

theorem test_witness_DecodeEncodeRoundTrip :
    (Instr.add .relative .immediate .relative).wf = true ∧ (Instr.inp .position).wf = true := by decide

theorem test_witness_DecodesExactlyItsWords :
    decode 101101 = .ok (.add .immediate .immediate .position) ∧ (101101 : Int) % 100 = 1 ∧
      digit 101101 2 = 1 ∧ digit 101101 3 = 1 ∧ digit 101101 4 = 0 := by
  decide

/-- Both ends of each range, and their neighbours. -/
theorem test_witness_UnknownOperationsAreRefused :
    decode 0 = .error .unknownOpcode ∧ decode 10 = .error .unknownOpcode ∧ decode 98 = .error .unknownOpcode ∧
      decode 1 ≠ .error .unknownOpcode ∧ decode 9 ≠ .error .unknownOpcode ∧ decode 99 ≠ .error .unknownOpcode ∧
      decode (-2) ≠ .error .unknownOpcode := by
  decide

/-- Digits 3 and 9, in the first and in the last slot. -/
theorem test_witness_InvalidModeDigitIsRefused :
    slotKinds ((301 : Int) % 100).toNat = some [.src, .src, .dst] ∧ 3 ≤ digit 301 2 ∧
      slotKinds ((90001 : Int) % 100).toNat = some [.src, .src, .dst] ∧ 3 ≤ digit 90001 4 ∧
      decode 301 = .error .invalidMode ∧ decode 90001 = .error .invalidMode := by
  decide

/-- The first bad slot is slot 0 in one word and the destination in the other. -/
theorem test_witness_FirstBadSlotDecides :
    slotKinds ((10301 : Int) % 100).toNat = some [.src, .src, .dst] ∧ 3 ≤ digit 10301 2 ∧
      decode 10301 = .error .invalidMode ∧ slotKinds ((11101 : Int) % 100).toNat = some [.src, .src, .dst] ∧
      digit 11101 4 = 1 ∧ decode 11101 = .error .invalidDestinationMode := by
  decide

theorem test_witness_UnusedDigitsAreIgnored :
    (901101 : Int) % 100 = (1101 : Int) % 100 ∧ slotKinds ((1101 : Int) % 100).toNat = some [.src, .src, .dst] ∧
      ∀ k, k < [SlotKind.src, .src, .dst].length → digit 901101 (k + 2) = digit 1101 (k + 2) := by
  decide

theorem test_witness_CanonicalWordIsShortest :
    (Instr.add .immediate .immediate .position).wf = true ∧
      decode 101101 = .ok (.add .immediate .immediate .position) ∧
      (101101 : Int) % 100 = encode (.add .immediate .immediate .position) % 100 ∧
      ∀ k, k < (Instr.add .immediate .immediate .position).arity →
        digit 101101 (k + 2) = digit (encode (.add .immediate .immediate .position)).toNat (k + 2) := by
  decide

/-- The branches of a source slot, in order: the argument address overflows; it is negative;
immediate; position, negative and not; relative, overflowing, negative and not. -/
theorem test_witness_SourceSlotValue :
    value { engine64 [] with ip := 9223372036854775807 } 0 .immediate = .error .overflow ∧
      value { engine [] with ip := -2 } 0 .immediate = .error .negativeAddress ∧
      value (engine [1, 7]) 0 .immediate = .ok 7 ∧
      value (engine [1, -1]) 0 .position = .error .negativeAddress ∧
      value (engine [1, 0]) 0 .position = .ok 1 ∧
      value { engine64 [1, 9223372036854775807] with rb := 1 } 0 .relative = .error .overflow ∧
      value { engine [1, 2] with rb := -3 } 0 .relative = .error .negativeAddress ∧
      value { engine [1, 2] with rb := -2 } 0 .relative = .ok 1 := by
  decide

theorem test_witness_DestinationSlotAddress :
    Mode.legalDst .position = true ∧ Mode.legalDst .relative = true ∧
      dest { engine64 [] with ip := 9223372036854775807 } 0 .position = .error .overflow ∧
      dest { engine [] with ip := -2 } 0 .position = .error .negativeAddress ∧
      dest (engine [3, -1]) 0 .position = .error .negativeAddress ∧
      dest (engine [3, 0]) 0 .position = .ok 0 ∧
      dest { engine64 [3, 9223372036854775807] with rb := 1 } 0 .relative = .error .overflow ∧
      dest { engine [3, 2] with rb := -3 } 0 .relative = .error .negativeAddress ∧
      dest { engine [3, 2] with rb := -2 } 0 .relative = .ok 0 := by
  decide

/-- 95 L1-5: `[rb+5]` with rb 15 and `[20]`; and a sum that is negative. -/
theorem test_witness_RelativeSlotIsPositionAtTheSum :
    (arg (engine [4, 20]) 0 = arg { engine [204, 5] with rb := 15 } 0 + 15 ∧
      representable Config.defaultParams 20 = true ∧
      (engine [4, 20]).mem.read 20 = (engine [204, 5]).mem.read 20) ∧
      (arg (engine [4, -1]) 0 = arg { engine [204, 2] with rb := -3 } 0 + -3 ∧
        representable Config.defaultParams (-1) = true ∧ ¬ (0 : Int) ≤ -1) := by
  decide

/-- Position, relative and immediate operands of one three-slot instruction, with a full sparse
region of one key, the key written. -/
def threeSlots (op : Int) : State :=
  { engineCap 1 [op, 5, 3, 996, 99, 21] with
    rb := 4, mem := (Memory.ofImage [op, 5, 3, 996, 99, 21]).write 6 1000 8 }

theorem test_witness_AddWritesTheSum :
    SrcOk (threeSlots 21001) 0 .position ∧ SrcOk (threeSlots 21001) 1 .immediate ∧
      DstOk (threeSlots 21001) 2 .relative ∧
      representable (threeSlots 21001).params
        (srcValue (threeSlots 21001) 0 .position + srcValue (threeSlots 21001) 1 .immediate) = true ∧
      representable (threeSlots 21001).params ((threeSlots 21001).ip + 4) = true ∧
      HasRoom (threeSlots 21001) (dstAddress (threeSlots 21001) 2 .relative) := by
  refine ⟨?_, ?_, ?_, by decide, by decide, .inr (.inl (by decide))⟩ <;>
    (simp only [SrcOk, DstOk, ArgOk, AddressOk]; decide)

/-- The greatest 64-bit word is a product that is accepted. -/
theorem test_witness_MulWritesTheProduct :
    SrcOk (engine64 [1102, 1, 9223372036854775807, 0]) 0 .immediate ∧
      SrcOk (engine64 [1102, 1, 9223372036854775807, 0]) 1 .immediate ∧
      DstOk (engine64 [1102, 1, 9223372036854775807, 0]) 2 .position ∧
      representable (engine64 []).params ((1 : Int) * 9223372036854775807) = true ∧
      srcValue (engine64 [1102, 1, 9223372036854775807, 0]) 0 .immediate = 1 ∧
      srcValue (engine64 [1102, 1, 9223372036854775807, 0]) 1 .immediate = 9223372036854775807 ∧
      representable (engine64 []).params ((0 : Int) + 4) = true ∧
      HasRoom (engine64 [1102, 1, 9223372036854775807, 0])
        (dstAddress (engine64 [1102, 1, 9223372036854775807, 0]) 2 .position) := by
  refine ⟨?_, ?_, ?_, by decide, by decide, by decide, by decide, .inl (by decide)⟩ <;>
    (simp only [SrcOk, DstOk, ArgOk]; decide)

/-- One state where the first value is the smaller by one. -/
theorem test_witness_LtWritesOneOrZero :
    SrcOk (engine [1107, 4, 5, 0]) 0 .immediate ∧ SrcOk (engine [1107, 4, 5, 0]) 1 .immediate ∧
      DstOk (engine [1107, 4, 5, 0]) 2 .position ∧ representable (engine []).params ((0 : Int) + 4) = true ∧
      HasRoom (engine [1107, 4, 5, 0]) (dstAddress (engine [1107, 4, 5, 0]) 2 .position) ∧
      srcValue (engine [1107, 4, 5, 0]) 0 .immediate < srcValue (engine [1107, 4, 5, 0]) 1 .immediate := by
  refine ⟨?_, ?_, ?_, by decide, .inl (by decide), by decide⟩ <;>
    (simp only [SrcOk, DstOk, ArgOk]; decide)

/-- One state where the two values are the same word of memory. -/
theorem test_witness_EqWritesOneOrZero :
    SrcOk (engine [8, 0, 0, 9]) 0 .position ∧ SrcOk (engine [8, 0, 0, 9]) 1 .position ∧
      DstOk (engine [8, 0, 0, 9]) 2 .position ∧ representable (engine []).params ((0 : Int) + 4) = true ∧
      HasRoom (engine [8, 0, 0, 9]) (dstAddress (engine [8, 0, 0, 9]) 2 .position) ∧
      srcValue (engine [8, 0, 0, 9]) 0 .position = srcValue (engine [8, 0, 0, 9]) 1 .position := by
  refine ⟨?_, ?_, ?_, by decide, .inr (.inr (fun k h => ?_)), by decide⟩ <;>
    first
      | (simp only [SrcOk, DstOk, ArgOk]; decide)
      | (cases h)

theorem test_witness_InWritesTheValueTaken :
    DstOk (fed (engine [3, 0, 99]) [99]) 0 .position ∧
      representable (fed (engine [3, 0, 99]) [99]).params ((0 : Int) + 2) = true ∧
      HasRoom (fed (engine [3, 0, 99]) [99]) (dstAddress (fed (engine [3, 0, 99]) [99]) 0 .position) ∧
      (fed (engine [3, 0, 99]) [99]).ports.inQueue = 99 :: [] := by
  refine ⟨?_, by decide, .inl (by decide), rfl⟩
  simp only [DstOk, ArgOk]; decide

theorem test_witness_InSuspendsWithoutAValue :
    DstOk (engine [3, 0, 99]) 0 .position ∧ representable (engine [3, 0, 99]).params ((0 : Int) + 2) = true ∧
      HasRoom (engine [3, 0, 99]) (dstAddress (engine [3, 0, 99]) 0 .position) ∧
      (engine [3, 0, 99]).ports.inQueue = [] := by
  refine ⟨?_, by decide, .inl (by decide), rfl⟩
  simp only [DstOk, ArgOk]; decide

theorem test_witness_OutPutsTheValue :
    SrcOk (engine [4, 50, 99]) 0 .position ∧ representable (engine [4, 50, 99]).params ((0 : Int) + 2) = true ∧
      (engine [4, 50, 99]).ports.outReady = true := by
  refine ⟨?_, by decide, rfl⟩
  simp only [SrcOk, ArgOk]; decide

theorem test_witness_OutSuspendsWhenBlocked :
    SrcOk (driveOutReady (engine [104, 7, 99]) false) 0 .immediate ∧
      representable (engine [104, 7, 99]).params ((0 : Int) + 2) = true ∧
      (driveOutReady (engine [104, 7, 99]) false).ports.outReady = false := by
  refine ⟨?_, by decide, rfl⟩
  simp only [SrcOk, ArgOk]; decide

/-- Conditions -1 and 0. -/
theorem test_witness_JtJumpsUnlessZero :
    (SrcOk (engine [1105, -1, 4]) 0 .immediate ∧ SrcOk (engine [1105, -1, 4]) 1 .immediate ∧
      srcValue (engine [1105, -1, 4]) 0 .immediate ≠ 0) ∧
      SrcOk (engine [1105, 0, 4]) 0 .immediate ∧ SrcOk (engine [1105, 0, 4]) 1 .immediate ∧
      srcValue (engine [1105, 0, 4]) 0 .immediate = 0 ∧
      representable (engine [1105, 0, 4]).params ((0 : Int) + 3) = true := by
  simp only [SrcOk, ArgOk]; decide

/-- Conditions 0 and 1. -/
theorem test_witness_JfJumpsOnlyOnZero :
    (SrcOk (engine [1106, 0, 4]) 0 .immediate ∧ SrcOk (engine [1106, 0, 4]) 1 .immediate ∧
      srcValue (engine [1106, 0, 4]) 0 .immediate = 0) ∧
      SrcOk (engine [1106, 1, 4]) 0 .immediate ∧ SrcOk (engine [1106, 1, 4]) 1 .immediate ∧
      srcValue (engine [1106, 1, 4]) 0 .immediate ≠ 0 ∧
      representable (engine [1106, 1, 4]).params ((0 : Int) + 3) = true := by
  simp only [SrcOk, ArgOk]; decide

theorem test_witness_ArbAddsToTheBase :
    SrcOk { engine [209, 3, 99] with rb := -1 } 0 .relative ∧
      representable (engine []).params (-1 + srcValue { engine [209, 3, 99] with rb := -1 } 0 .relative) = true ∧
      representable (engine []).params ((0 : Int) + 2) = true := by
  refine ⟨?_, by decide, by decide⟩
  simp only [SrcOk, ArgOk, AddressOk]; decide

theorem test_witness_HaltOnlySetsTheStatus :
    (0 : Int) ≤ 99 ∧ (99 : Int) % 100 = 99 ∧ (21099 : Int) % 100 = 99 ∧
      ({ engine [99] with status := .halted } : State).status = .halted := by
  decide

/-- A commit of each kind: an advance by the width, a jump taken, a jump not taken, a halt, and
both statuses of an output. -/
theorem test_witness_NextIpAndStatus :
    (nextOf (exec (.arb .immediate) (engine [109, 5]))).map (fun t => (t.status, t.ip)) = some (.running, 2) ∧
      (nextOf (exec (.jt .immediate .immediate) (engine [1105, 1, 9]))).map (fun t => (t.status, t.ip)) =
        some (.running, 9) ∧
      (nextOf (exec (.jf .immediate .immediate) (engine [1106, 1, 9]))).map (fun t => (t.status, t.ip)) =
        some (.running, 3) ∧
      (nextOf (exec .halt (engine [99]))).map (fun t => (t.status, t.ip)) = some (.halted, 0) ∧
      (nextOf (exec (.out .immediate) (engine [104, 9]))).map (fun t => (t.status, t.ip)) = some (.running, 2) ∧
      (nextOf (exec (.out .immediate) { engine [104, 9] with cfg := { yieldOnOutput := true } })).map
        (fun t => (t.status, t.ip)) = some (.yielded, 2) := by
  decide

/-- A fault of each kind an instruction can take, and an engine that was not faulted before. -/
theorem test_witness_FirstFaultIsTaken :
    (Instr.add .position .position .position).wf = true ∧
      firstFault (checks (engine [1, -1, 0, 0]) (.add .position .position .position)) = some .negativeAddress ∧
      firstFault (checks (engine64 [1101, 9223372036854775807, 1, 0]) (.add .immediate .immediate .position)) =
        some .overflow ∧
      firstFault (checks (engineCap 0 [1101, 1, 1, 1000]) (.add .immediate .immediate .position)) =
        some .capacityExceeded ∧
      (engine [1, -1, 0, 0]).status ≠ .faulted ∧
      (nextOf (exec (.add .position .position .position) (engine [1, -1, 0, 0]))).map State.status =
        some .faulted := by
  decide

theorem test_witness_FaultEntryChangesNothingElse :
    (engine [0]).status ≠ .faulted ∧ (nextOf (step (engine [0]))).map State.status = some .faulted := by decide

/-- ip -1, ip 0, and an ip where no word is listed. -/
theorem test_witness_FetchFaultsOnlyAtNegativeIp :
    (({ engine [99] with ip := -1 } : State).ip < 0 ∧ enabled { engine [99] with ip := -1 } = true) ∧
      (0 : Int) ≤ (engine [99]).ip ∧ fetch (engine [99]) = .ok 99 ∧
      (∀ c ∈ (engine [0, 99]).mem.cells, c.1 ≠ (engine [0, 99]).ip.toNat) ∧ fetch (engine [0, 99]) = .ok 0 := by
  decide

theorem test_witness_NegativeOpcodeWordFaults :
    ((-1 : Int) < 0) ∧ enabled (engine [-1]) = true ∧ (0 : Int) ≤ (engine [-1]).ip ∧
      (engine [-1]).mem.read (engine [-1]).ip.toNat < 0 := by
  decide

/-- One engine for each of the four decode faults. -/
theorem test_witness_DecodeFaultIsTakenAtOnce :
    enabled (engine [-1]) = true ∧ (0 : Int) ≤ (engine [-1]).ip ∧
      decode ((engine [-1]).mem.read 0) = .error .negativeOpcodeWord ∧
      decode ((engine [0]).mem.read 0) = .error .unknownOpcode ∧
      decode ((engine [301]).mem.read 0) = .error .invalidMode ∧
      decode ((engine [103]).mem.read 0) = .error .invalidDestinationMode := by
  decide

/-- A default engine that faults. -/
theorem test_witness_UnboundedParametersNeverFault :
    (engine [1, -1]).fault = none ∧
      (nextOf (step (engine [1, -1]))).map (fun t => t.fault.map FaultRecord.code) = some (some .negativeAddress) ∧
      (engine [1, -1]).params.wordBits = none ∧ (engine [1, -1]).params.sparseCapacity = none := by
  decide

/-- An engine stopped by UnknownOpcode at address 0. -/
def stoppedByFault : State := Faulted (engine [0]) .unknownOpcode

theorem test_witness_FaultRecordIsPermanent :
    StatusInv stoppedByFault ∧ stoppedByFault.fault = some ⟨.unknownOpcode, 0, some 0⟩ ∧
      (nextOf (poke stoppedByFault 0 99)).isSome = true ∧ (nextOf (provide stoppedByFault 5)).isSome = true := by
  refine ⟨⟨by decide, ?_, by decide, ?_, ?_, by decide⟩, rfl, by decide, by decide⟩
  · intro r h
    cases h
    rfl
  · intro h
    cases h
  · intro h
    cases h

theorem test_witness_StepRunsTheDecodedInstruction :
    enabled (engine [1101, 4, 3, 5, 99]) = true ∧ (0 : Int) ≤ (engine [1101, 4, 3, 5, 99]).ip ∧
      decode ((engine [1101, 4, 3, 5, 99]).mem.read (engine [1101, 4, 3, 5, 99]).ip.toNat) =
        .ok (.add .immediate .immediate .position) := by
  decide

/-- Each status, and both values of each port condition; a closed empty input. -/
theorem test_witness_NoStepWhereNoneIsEnabled :
    enabled State.reset = false ∧ enabled { State.reset with status := .yielded } = false ∧
      enabled { State.reset with status := .halted } = false ∧
      enabled { State.reset with status := .faulted } = false ∧
      enabled { State.reset with status := .awaitIn } = false ∧
      enabled (fed { State.reset with status := .awaitIn } [0]) = true ∧
      enabled (driveOutReady { State.reset with status := .awaitOut } false) = false ∧
      enabled (driveOutReady { State.reset with status := .awaitOut } true) = true ∧
      enabled { State.reset with status := .running } = true ∧
      (closeInput { State.reset with status := .awaitIn }).status = .awaitIn ∧
      (closeInput { State.reset with status := .awaitIn }).ports.inQueue = [] ∧
      (closeInput { State.reset with status := .awaitIn }).ports.inClosed = true ∧
      (nextOf (act (closeInput { State.reset with status := .awaitIn }) (.port .close))).isSome = true := by
  decide

/-- A commit that stores, one that does not, each suspension, and a fault. -/
theorem test_witness_StepCommitsSuspendsOrFaults :
    enabled (engine [109, 1]) = true ∧ (nextOf (step (engine [109, 1]))).map State.status = some .running ∧
      firstFault (checks (engine [109, 1]) (.arb .immediate)) = none ∧
      storeOf (engine [1101, 4, 3, 0]) (.add .immediate .immediate .position) = some (.ok 0, 7) ∧
      (nextOf (step (engine [1101, 4, 3, 0]))).map (fun t => (t.status, t.mem.read 0)) = some (.running, 7) ∧
      (nextOf (step (engine [3, 0]))).map State.status = some .awaitIn ∧
      (nextOf (step (driveOutReady (engine [104, 0]) false))).map State.status = some .awaitOut ∧
      (nextOf (step (engine [0]))).map State.status = some .faulted := by
  refine ⟨by decide, by decide, by decide, rfl, by decide, by decide, by decide, by decide⟩

/-- An engine suspended at `IN [0]`, and one at `OUT #7` with yield_on_output 1. -/
def waitingIn : State := { engine [3, 0] with status := .awaitIn }
def waitingOut : State := { engine [104, 7] with status := .awaitOut, cfg := { yieldOnOutput := true } }

/-- Both meet the status invariant, and resume; a running engine meets it too. -/
theorem test_witness_StatusTransitions :
    StatusInv (fed waitingIn [5]) ∧ StatusInv waitingOut ∧
      (nextOf (step (fed waitingIn [5]))).map State.status = some .running ∧
      (nextOf (step waitingOut)).map State.status = some .yielded := by
  refine ⟨⟨by decide, ?_, by decide, fun _ => ⟨by decide, .position, rfl, by decide⟩, ?_, by decide⟩,
    ⟨by decide, ?_, by decide, ?_, fun _ => ⟨by decide, .immediate, rfl, by decide⟩, by decide⟩,
    by decide, by decide⟩
  · intro r h; cases h
  · intro h; cases h
  · intro r h; cases h
  · intro h; cases h

theorem test_witness_SuspendedInputResumes :
    (engine [3, 0, 99]).status = .running ∧
      (nextOf (step (engine [3, 0, 99]))).map State.status = some .awaitIn ∧
      ((nextOf (step (engine [3, 0, 99]))).bind (fun t => nextOf (provide t 5))).isSome = true ∧
      (nextOf (provide (engine [3, 0, 99]) 5)).isSome = true := by
  decide

theorem test_witness_SuspendedOutputResumes :
    (driveOutReady (engine [104, 7, 99]) false).status = .running ∧
      (nextOf (step (driveOutReady (engine [104, 7, 99]) false))).map State.status = some .awaitOut := by
  decide

/-- 95 J-6 and J-7. -/
theorem test_witness_NegativeJumpTargetFaultsAtTheNextFetch :
    (SrcOk (engine [1105, 1, -1]) 0 .immediate ∧ SrcOk (engine [1105, 1, -1]) 1 .immediate ∧
      srcValue (engine [1105, 1, -1]) 0 .immediate ≠ 0 ∧ srcValue (engine [1105, 1, -1]) 1 .immediate < 0 ∧
      (nextOf (exec (.jt .immediate .immediate) (engine [1105, 1, -1]))).isSome = true) ∧
      SrcOk (engine [1106, 0, -5]) 0 .immediate ∧ SrcOk (engine [1106, 0, -5]) 1 .immediate ∧
      srcValue (engine [1106, 0, -5]) 0 .immediate = 0 ∧ srcValue (engine [1106, 0, -5]) 1 .immediate < 0 ∧
      (nextOf (exec (.jf .immediate .immediate) (engine [1106, 0, -5]))).isSome = true := by
  simp only [SrcOk, ArgOk]; decide

/-- 95 P4: the word written is the next opcode word; 95 A-9: it is the instruction's own. -/
theorem test_witness_WrittenWordIsFetchedNext :
    (nextOf (exec (.add .immediate .immediate .position) (engine [1101, 1, 98, 4, 0]))).map
        (fun t => (t.status, fetch t)) = some (.running, .ok 99) ∧
      dest (engine [1101, 1, 98, 4, 0]) 2 .position = .ok 4 ∧
      (nextOf (exec (.add .immediate .immediate .position) (engine [1101, 1, 1, 0, 99]))).map
        (fun t => (t.status, t.ip, t.mem.read 0)) = some (.running, 4, 2) := by
  refine ⟨rfl, rfl, rfl⟩

/-- A step with each pulse, and one with none. -/
theorem test_witness_EachValueCrossesOnce :
    (nextOf (step (fed (engine [3, 0]) [17, 18]))).map (fun t => (t.ports.inTake, t.ports.inQueue)) =
        some (true, [18]) ∧
      (nextOf (step (engine [104, 17]))).map (fun t => (t.ports.outPut, t.outData)) = some (true, some 17) ∧
      (nextOf (step (engine [109, 1]))).map (fun t => (t.ports.inTake, t.ports.outPut)) = some (false, false) := by
  decide

/-- A store that lands and one that faults. -/
theorem test_witness_FrameOfThreeSlotStores :
    (nextOf (exec (.lt .immediate .immediate .position) (engine [1107, 1, 2, 9]))).map
        (fun t => (t.status, t.mem.read 9, t.mem.read 8)) = some (.running, 1, 0) ∧
      (nextOf (exec (.mul .immediate .immediate .position) (engine [1102, 1, 2, -1]))).map
        (fun t => (t.status, t.mem.read 0)) = some (.faulted, 1102) := by
  decide

/-- An input that lands, one that waits and one that faults. -/
theorem test_witness_FrameOfInput :
    (nextOf (exec (.inp .position) (fed (engine [3, 9]) [5]))).map State.status = some .running ∧
      (nextOf (exec (.inp .position) (engine [3, 9]))).map State.status = some .awaitIn ∧
      (nextOf (exec (.inp .position) (engine [3, -1]))).map State.status = some .faulted := by
  decide

/-- One next state of each of the five. -/
theorem test_witness_FrameOfNonStoring :
    (nextOf (exec (.out .immediate) (engine [104, 7]))).map State.status = some .running ∧
      (nextOf (exec (.jt .immediate .immediate) (engine [1105, 1, 0]))).map State.status = some .running ∧
      (nextOf (exec (.jf .immediate .immediate) (engine [1106, 1, 0]))).map State.status = some .running ∧
      (nextOf (exec (.arb .position) (engine [9, -1]))).map State.status = some .faulted ∧
      (nextOf (exec .halt (engine [99]))).map State.status = some .halted := by
  decide

theorem test_witness_OnlyArbChangesTheBase :
    (nextOf (step (engine [109, 5]))).map State.rb = some 5 ∧ (engine [109, 5]).rb = 0 ∧
      (nextOf (act State.reset (.poke 3 4))).isSome = true ∧
      (nextOf (act State.reset (.port (.provide 4)))).isSome = true := by
  decide

theorem test_witness_ConfigurationIsFixed : (nextOf (step (engine64 [104, 7]))).isSome = true := by decide

/-- A full sparse region of one key that holds a word, before a step that writes it again. -/
theorem test_witness_StepKeepsMemoryInv :
    MemoryInv (threeSlots 21001) ∧
      (nextOf (step (threeSlots 21001))).map (fun t => (t.mem.read 1000, t.mem.sparse)) = some (24, [1000]) := by
  refine ⟨⟨by decide, by decide, by decide, ?_⟩, by decide⟩
  intro k h
  cases h
  decide

/-- Words at both ends of the 64-bit range. -/
theorem test_witness_StepKeepsRangeInv :
    RangeInv (fed (engine64 [3, 0, 9223372036854775807, -9223372036854775808]) [-9223372036854775808]) ∧
      (nextOf (step (fed (engine64 [3, 0, 9223372036854775807]) [-9223372036854775808]))).map
        (fun t => t.mem.read 0) = some (-9223372036854775808) := by
  refine ⟨⟨by decide, by decide, by decide, by decide, by decide, ?_, by decide⟩, by decide⟩
  intro v h
  cases h

/-- The two neighbours of the ends of the 64-bit range are no words. -/
theorem test_word_range :
    representable (engine64 []).params 9223372036854775807 = true ∧
      representable (engine64 []).params 9223372036854775808 = false ∧
      representable (engine64 []).params (-9223372036854775808) = true ∧
      representable (engine64 []).params (-9223372036854775809) = false := by
  decide

/-- An engine about to fault, and one about to suspend. -/
theorem test_witness_StepKeepsStatusInv :
    StatusInv (engine [0]) ∧ (nextOf (step (engine [0]))).map State.status = some .faulted ∧
      StatusInv (engine [3, 0]) ∧ (nextOf (step (engine [3, 0]))).map State.status = some .awaitIn := by
  refine ⟨⟨by decide, ?_, by decide, ?_, ?_, by decide⟩, by decide,
    ⟨by decide, ?_, by decide, ?_, ?_, by decide⟩, by decide⟩
  · intro r h; cases h
  · intro h; cases h
  · intro h; cases h
  · intro r h; cases h
  · intro h; cases h
  · intro h; cases h

theorem test_witness_NewEngineMeetsTheInvariants :
    (nextOf (newEngine ⟨some 64, some 0⟩ ⟨true⟩ [1101, -9223372036854775808, 0])).map
        (fun s => (s.status, s.n, s.mem.read 1)) = some (.ready, 3, -9223372036854775808) := by
  decide

/-- Both outcomes of a construction, and the two parameter checks at their ends. -/
theorem test_witness_ConstructionGivesTheResetValues :
    paramsOk ⟨some 64, none⟩ = true ∧ paramsOk ⟨some 63, none⟩ = false ∧
      (∀ v ∈ ([9223372036854775807] : List Int), representable ⟨some 64, none⟩ v = true) ∧
      (∃ v ∈ ([9223372036854775808] : List Int), representable ⟨some 64, none⟩ v = false) ∧
      refusalOf (newEngine ⟨some 64, none⟩ ⟨false⟩ [9223372036854775808]) = some .imageNotRepresentable := by
  refine ⟨by decide, by decide, by decide, ⟨9223372036854775808, by decide, by decide⟩, by decide⟩

theorem test_reset_invariants : MemoryInv State.reset ∧ StatusInv State.reset ∧ RangeInv State.reset := by
  refine ⟨⟨by decide, by decide, by decide, ?_⟩, ⟨by decide, ?_, by decide, ?_, ?_, by decide⟩,
    ⟨by decide, by decide, by decide, by decide, by decide, ?_, by decide⟩⟩
  · intro k h; cases h
  · intro r h; cases h
  · intro h; cases h
  · intro h; cases h
  · intro v h; cases h

/-- The premises are met by the reset state and a move of each kind. -/
theorem test_witness_HostMovesKeepTheInvariants :
    Inv State.reset ∧ (nextOf (act State.reset .run)).isSome = true ∧
      (nextOf (act State.reset (.poke 0 99))).isSome = true ∧
      (nextOf (act State.reset (.port (.provide 5)))).isSome = true ∧
      (nextOf (act State.reset (.port .drain))).isSome = true :=
  ⟨⟨test_reset_invariants.1, test_reset_invariants.2.2, test_reset_invariants.2.1⟩,
    by decide, by decide, by decide, by decide⟩

/-- A poke in each of the seven statuses. -/
theorem test_witness_PokeOnlyWhileStopped :
    (nextOf (poke State.reset 0 7)).map (fun t => peek t 0) = some 7 ∧
      (nextOf (poke { State.reset with status := .yielded } 0 7)).map (fun t => peek t 0) = some 7 ∧
      (nextOf (poke { State.reset with status := .halted } 0 7)).map (fun t => peek t 0) = some 7 ∧
      (nextOf (poke { State.reset with status := .faulted } 0 7)).map (fun t => peek t 0) = some 7 ∧
      refusalOf (poke { State.reset with status := .running } 0 7) = some .pokeWhileRunning ∧
      refusalOf (poke { State.reset with status := .awaitIn } 0 7) = some .pokeWhileRunning ∧
      refusalOf (poke { State.reset with status := .awaitOut } 0 7) = some .pokeWhileRunning ∧
      representable State.reset.params 7 = true ∧ HasRoom State.reset 0 := by
  refine ⟨by decide, by decide, by decide, by decide, by decide, by decide, by decide, by decide, .inr (.inr ?_)⟩
  intro k h
  cases h

theorem test_witness_RunCommandOnlyStarts :
    State.reset.status = .ready ∧ ({ State.reset with status := .yielded } : State).status = .yielded ∧
      (engine [99]).status ≠ .ready ∧ (engine [99]).status ≠ .yielded ∧
      (nextOf (poke State.reset 0 7)).isSome = true := by
  decide

/-- A call that produces an output and one that ends without. -/
theorem test_witness_OneOutputPerCall :
    (runUntilOutputOrHalt (fun _ => []) 2 { engine [104, 1, 99] with cfg := { yieldOnOutput := true } }).map
        (fun r => (report r.1, r.2)) = some (some (.outputProduced 1), [1]) ∧
      (runUntilOutputOrHalt (fun _ => []) 2 { engine [99] with cfg := { yieldOnOutput := true } }).map
        (fun r => (report r.1, r.2)) = some (some .halted, []) := by
  decide

theorem test_witness_TerminatedForEver :
    terminated { engine [99] with status := .halted } = true ∧ terminated stoppedByFault = true ∧
      (nextOf (step { engine [99] with status := .halted })).isSome = true ∧
      (nextOf (poke stoppedByFault 0 7)).isSome = true ∧
      (nextOf (act stoppedByFault (.port (.provide 7)))).isSome = true := by
  decide

/-- A network step with each pulse: A takes the seed; B, fed, puts it on. A host action; and the
queues of the ring as the ports of its engines show them. -/
theorem test_witness_NetworkStepMovesOnlyItsOwnValues :
    ((ring.step 0).map (fun net => net.queues.map Queue.items)) = some [[], []] ∧
      (((ring.step 0).bind (fun net => net.step 0)).map (fun net => net.queues.map Queue.items)) =
        some [[17], []] ∧
      (ring.hostAction 1 .run).isSome = true ∧
      ring.inputOf 0 = some { items := [17], bound := none, writer := 1, reader := 0 } ∧
      ring.outputOf 0 = some { items := [], bound := none, writer := 0, reader := 1 } := by
  decide

/-- A stuck ring (nothing seeded, both waiting) and a terminated one. -/
theorem test_witness_StuckOrTerminatedNetworkHasNoStep :
    ({ engines := [{ engine [3, 0] with status := .awaitIn }]
       queues := [{ items := [], bound := none, writer := 0, reader := 0 }] } : Network).stuck = true ∧
      ({ engines := [{ engine [99] with status := .halted }], queues := [] } : Network).terminated = true := by
  decide

end Sys2Proof.Tests
end

