-- ==== Sys2Proof/Proofs/Range.lean ====
section
/-! SUPPORT. Every word an engine holds stays representable: what the engine reads is a word, what
it commits has been checked or was read, and every end of an instruction keeps `RangeInv`. -/

namespace Sys2Proof.Machine

/-! ### Words -/

/-- The words 0 and 1 need no range check (40_sequencer.md R120): an admitted width holds them. -/
theorem representable_of_zero_or_one {p : Params} (hp : paramsOk p = true) {v : Int} (hv : v = 0 ∨ v = 1) :
    representable p v = true := by
  unfold paramsOk at hp
  unfold representable
  cases hk : p.wordBits with
  | none => rfl
  | some k =>
    have h64 : 64 ≤ k := by simpa [hk] using hp
    have hpow : 2 ^ 1 ≤ 2 ^ (k - 1) := Nat.pow_le_pow_right (by decide) (by omega)
    simp only [decide_eq_true_eq]
    omega

theorem inData_mem {s : State} {v : Int} (h : inData s = some v) : v ∈ s.ports.inQueue :=
  List.mem_of_head? h

namespace RangeInv

variable {s t : State}

/-! ### What the engine reads -/

theorem read (h : RangeInv s) (a : Nat) : representable s.params (s.mem.read a) = true := by
  rcases read_mem s.mem a with h0 | hc
  · exact representable_of_zero_or_one h.width (.inl h0)
  · exact h.cells _ hc

/-- In every mode the value of a source slot is a word of memory. -/
theorem srcValue (h : RangeInv s) (i : Nat) (m : Mode) :
    representable s.params (srcValue s i m) = true := by
  cases m with
  | immediate => exact h.read _
  | position => exact h.read _
  | relative => exact h.read _

theorem value (h : RangeInv s) {i : Nat} {m : Mode} {v : Int} (hv : value s i m = .ok v) :
    representable s.params v = true := by
  obtain ⟨-, rfl⟩ := value_ok.mp hv
  exact h.srcValue i m

/-! ### What the engine writes -/

theorem cells_write (h : RangeInv s) (n a : Nat) {v : Int} (hv : representable s.params v = true) :
    ∀ c ∈ (s.mem.write n a v).cells, representable s.params c.2 = true := by
  intro c hc
  rcases mem_write_cells hc with rfl | hc
  · exact hv
  · exact h.cells c hc

/-! A step that is not taken, a suspension, a halt and a fault write none of these words; a commit
writes the words it is given. -/

theorem idle (h : RangeInv s) : RangeInv (idle s) := { h with }

theorem suspend (h : RangeInv s) (st : Status) : RangeInv (suspend s st) := { h with }

theorem commitHalt (h : RangeInv s) : RangeInv (commitHalt s) := { h with }

theorem raise (h : RangeInv s) (c : FaultCode) : RangeInv (raise s c) := { h with }

theorem commit (h : RangeInv s) {ip : Int} (hip : representable s.params ip = true) :
    RangeInv (commit s ip) := { h with ip := hip }

theorem commitBase (h : RangeInv s) {rb ip : Int} (hrb : representable s.params rb = true)
    (hip : representable s.params ip = true) : RangeInv (commitBase s rb ip) :=
  { h with rb := hrb, ip := hip }

theorem commitWrite (h : RangeInv s) (a : Nat) {v ip : Int} (hv : representable s.params v = true)
    (hip : representable s.params ip = true) : RangeInv (commitWrite s a v ip) :=
  { h with cells := h.cells_write s.n a hv, ip := hip }

/-- The values still waiting after one is taken were waiting before. -/
theorem commitInput (h : RangeInv s) (a : Nat) {v ip : Int} (hv : representable s.params v = true)
    (hip : representable s.params ip = true) : RangeInv (commitInput s a v ip) :=
  { h with
    cells := h.cells_write s.n a hv
    ip := hip
    inputs := fun w hw => h.inputs w (List.mem_of_mem_tail hw) }

theorem commitOutput (h : RangeInv s) {v ip : Int} (hv : representable s.params v = true)
    (hip : representable s.params ip = true) : RangeInv (commitOutput s v ip) :=
  { h with
    ip := hip
    outData := fun w hw => by
      obtain rfl : v = w := by simpa using hw
      exact hv
    outputs := fun w hw => by
      rcases (by simpa using hw : w ∈ s.ports.outQueue ∨ w = v) with hw | rfl
      · exact h.outputs w hw
      · exact hv }

/-! ### Instructions and steps -/

/-- Every end of an instruction keeps the words representable: what a result, a base or a next `ip`
stores was checked, and what an input, an output or a taken jump stores was a word before. -/
theorem of_ends (h : RangeInv s) {i : Instr} (he : Ends s i t) : RangeInv t := by
  cases he with
  | fault _ c => exact h.raise c
  | awaitIn => exact h.suspend _
  | awaitOut => exact h.suspend _
  | store _ ea v _ hv hip => exact h.commitWrite ea (hv.elim id (representable_of_zero_or_one h.width)) hip
  | input m ea v _ hv hip => exact h.commitInput ea (h.inputs v (inData_mem hv)) hip
  | output m v hv hip => exact h.commitOutput (h.value hv) hip
  | jump _ t a b _ ht => exact h.commit (ht.elim h.value And.right)
  | base m r hrb hip => exact h.commitBase hrb hip
  | halt => exact h.commitHalt

theorem step (h : RangeInv s) (hs : step s = .next t) : RangeInv t := by
  rcases step_ends hs with ⟨-, rfl⟩ | ⟨-, i, he⟩
  · exact h.idle
  · exact h.of_ends he

end RangeInv

/-- Settles O48: the step either is none or is an end of an instruction, and each keeps the invariant
(40_sequencer.md R120). -/
theorem stepKeepsRangeInv : Obligations.StepKeepsRangeInv :=
  fun _ _ h hs => h.step hs

end Sys2Proof.Machine
end

