-- ==== Sys2Proof/Proofs/Status.lean ====
section
/-! SUPPORT. The status register, the fault record and what an engine waits at. A step reaches an
enabled engine only while it holds no record, so every end of an instruction but a fault leaves none;
an instruction that suspends has passed all of its checks. -/

namespace Sys2Proof.Machine

/-! ### Checks that passed (60_exceptions.md R236 steps 5 to 8) -/

theorem firstFault_eq_none {l : List (Option FaultCode)} : firstFault l = none ↔ ∀ f ∈ l, f = none := by
  induction l with
  | nil => simp [firstFault]
  | cons f l ih => cases f <;> simp [firstFault, ih]

theorem rangeFault_eq_none {s : State} {v : Int} :
    rangeFault s v = none ↔ representable s.params v = true := by
  simp [rangeFault]

theorem capacityFault_eq_none {s : State} {a : Nat} : capacityFault s a = none ↔ HasRoom s a := by
  simp [capacityFault, ← sparseFull_eq_false]

theorem slotFault_eq_none_of_value {s : State} {i : Nat} {m : Mode} {v : Int} (h : value s i m = .ok v) :
    slotFault s i m = none := by
  rw [value_eq] at h
  cases hf : slotFault s i m with
  | none => rfl
  | some c => simp [hf] at h

theorem legalDst_of_dest {s : State} {i : Nat} {m : Mode} {ea : Nat} (h : dest s i m = .ok ea) :
    m.legalDst = true := by
  cases m with
  | immediate => exact (dest_ok.mp h).1.elim
  | position => rfl
  | relative => rfl

theorem slotFault_eq_none_of_dest {s : State} {i : Nat} {m : Mode} {ea : Nat} (h : dest s i m = .ok ea) :
    slotFault s i m = none := by
  rw [dest_eq s i (legalDst_of_dest h)] at h
  cases hf : slotFault s i m with
  | none => rfl
  | some c => simp [hf] at h

/-- An input that takes no fault passed every check, whether or not it found a value (42_io.md R151, R152). -/
theorem execIn_passes {s t : State} {m : Mode} (h : execIn m s = .next t) (ht : t.status ≠ .faulted) :
    firstFault (checks s (.inp m)) = none := by
  rcases settle_next h with h | ⟨c, -, rfl⟩
  · obtain ⟨ea, he, h⟩ := bind_ok.mp h
    obtain ⟨next, hn, h⟩ := bind_ok.mp h
    obtain ⟨u, hc, -⟩ := bind_ok.mp h
    obtain ⟨hr, -⟩ := checkRange_ok.mp hn
    obtain ⟨-, rfl⟩ := dest_ok.mp he
    simp [firstFault_eq_none, checks, slotFault_eq_none_of_dest he, rangeFault_eq_none.mpr hr,
      capacityFault_eq_none.mpr (checkCapacity_ok.mp hc)]
  · exact absurd rfl ht

/-- An output that takes no fault passed every check, whether or not the port accepted it (42_io.md R154, R156). -/
theorem execOut_passes {s t : State} {m : Mode} (h : execOut m s = .next t) (ht : t.status ≠ .faulted) :
    firstFault (checks s (.out m)) = none := by
  rcases settle_next h with h | ⟨c, -, rfl⟩
  · obtain ⟨v, hv, h⟩ := bind_ok.mp h
    obtain ⟨next, hn, -⟩ := bind_ok.mp h
    obtain ⟨hr, -⟩ := checkRange_ok.mp hn
    simp [firstFault_eq_none, checks, slotFault_eq_none_of_value hv, rangeFault_eq_none.mpr hr]
  · exact absurd rfl ht

/-! ### The status invariant -/

namespace StatusInv

variable {s t : State}

/-- A step is enabled only in RUNNING and in a wait, so the engine holds no record
(10_state.md R30; 40_sequencer.md R110). -/
theorem fault_eq_none (h : StatusInv s) (he : enabled s = true) : s.fault = none := by
  by_contra hf
  have hst : s.status = .faulted := h.faulted.mpr hf
  simp [enabled, hst] at he

/-- READY, RUNNING and HALTED ask for no more than that there is no record. -/
theorem of_no_record (hf : t.fault = none) (hst : t.status = .ready ∨ t.status = .running ∨ t.status = .halted)
    (hp : ¬(t.ports.inTake = true ∧ t.ports.outPut = true)) : StatusInv t where
  faulted := by rcases hst with hst | hst | hst <;> simp [hst, hf]
  faultIp := by simp [hf]
  yielded := by rcases hst with hst | hst | hst <;> simp [hst]
  awaitIn := by rcases hst with hst | hst | hst <;> simp [hst]
  awaitOut := by rcases hst with hst | hst | hst <;> simp [hst]
  onePulse := hp

theorem idle (h : StatusInv s) : StatusInv (idle s) := { h with onePulse := by simp }

/-- Whatever the state was, the record a fault leaves names the `ip` it stopped at (60_exceptions.md R230). -/
theorem raise (s : State) (c : FaultCode) : StatusInv (raise s c) where
  faulted := by simp
  faultIp := by simp
  yielded := by simp
  awaitIn := by simp
  awaitOut := by simp
  onePulse := by simp

/-- The wait for an input, at an input every check of which passed (40_sequencer.md R122). -/
theorem suspend_awaitIn (hf : s.fault = none) (hip : 0 ≤ s.ip) {m : Mode}
    (hd : decode (s.mem.read s.ip.toNat) = .ok (.inp m)) (hc : firstFault (checks s (.inp m)) = none) :
    StatusInv (suspend s .awaitIn) where
  faulted := by simp [hf]
  faultIp := by simp [hf]
  yielded := by simp
  awaitIn := fun _ => ⟨hip, m, hd, hc⟩
  awaitOut := by simp
  onePulse := by simp

/-- The wait for the consumer, at an output every check of which passed (40_sequencer.md R122). -/
theorem suspend_awaitOut (hf : s.fault = none) (hip : 0 ≤ s.ip) {m : Mode}
    (hd : decode (s.mem.read s.ip.toNat) = .ok (.out m)) (hc : firstFault (checks s (.out m)) = none) :
    StatusInv (suspend s .awaitOut) where
  faulted := by simp [hf]
  faultIp := by simp [hf]
  yielded := by simp
  awaitIn := by simp
  awaitOut := fun _ => ⟨hip, m, hd, hc⟩
  onePulse := by simp

/-- YIELDED is entered only under yield_on_output, by the commit that sets `out_data`
(10_state.md R28, R32; 40_sequencer.md R119). -/
theorem commitOutput (hf : s.fault = none) (v ip : Int) : StatusInv (commitOutput s v ip) := by
  cases hy : s.cfg.yieldOnOutput with
  | false => exact of_no_record hf (by simp [statusAfterOutput, hy]) (by simp)
  | true =>
    have hst : statusAfterOutput s = .yielded := by simp [statusAfterOutput, hy]
    exact {
      faulted := by simp [hst, hf]
      faultIp := by simp [hf]
      yielded := fun _ => ⟨hy, by simp⟩
      awaitIn := by simp [hst]
      awaitOut := by simp [hst]
      onePulse := by simp }

/-- The decoded instruction, executed by an engine with no record, ends in agreement: only its two
suspensions need what it was decoded from. -/
theorem of_exec (hf : s.fault = none) (hip : 0 ≤ s.ip) {i : Instr}
    (hd : decode (s.mem.read s.ip.toNat) = .ok i) (hx : exec i s = .next t) : StatusInv t := by
  cases exec_ends hx with
  | fault _ c => exact raise s c
  | awaitIn m => exact suspend_awaitIn hf hip hd (execIn_passes hx (by simp))
  | awaitOut m => exact suspend_awaitOut hf hip hd (execOut_passes hx (by simp))
  | output m v => exact commitOutput hf v _
  | store | input | jump | base | halt => exact of_no_record hf (by simp) (by simp)

theorem step (h : StatusInv s) (hs : step s = .next t) : StatusInv t := by
  rcases step_cases hs with ⟨-, rfl⟩ | ⟨-, -, rfl⟩ | ⟨-, -, c, -, rfl⟩ | ⟨he, hip, i, hd, hx⟩
  · exact h.idle
  · exact raise s _
  · exact raise s c
  · exact of_exec (h.fault_eq_none he) hip hd hx

end StatusInv

/-- Settles O49: a step that is none leaves the agreement, a fault makes its own, and an instruction
is executed only by an engine with no record (10_state.md R28, R30, R32; 40_sequencer.md R122). -/
theorem stepKeepsStatusInv : Obligations.StepKeepsStatusInv :=
  fun _ _ h hs => h.step hs

end Sys2Proof.Machine
end

