-- ==== Sys2Proof/Proofs/Configuration.lean ====
section
/-! SUPPORT. What is fixed for an engine, the state after reset, and the numbers of the statuses. -/

namespace Sys2Proof.Machine

/-! ### The configuration (10_state.md R33 to R35) -/

theorem Ends.configuration {s t : State} {i : Instr} (h : Ends s i t) :
    t.cfg = s.cfg ∧ t.n = s.n ∧ t.params = s.params := by
  cases h with
  | fault | awaitIn | awaitOut | store | input | output | jump | base | halt => simp

/-- Settles O46: neither a step that is none nor an end of an instruction writes these fields. -/
theorem configurationIsFixed : Obligations.ConfigurationIsFixed := by
  intro s t hs
  rcases step_ends hs with ⟨-, rfl⟩ | ⟨-, i, he⟩
  · simp
  · exact he.configuration

/-! ### The state after reset (10_state.md R38) -/

/-- The empty memory is in its canonical form, with no key to lie below N or to exceed a capacity. -/
theorem memoryInv_reset : MemoryInv State.reset where
  canonical := rfl
  keysAbove := by simp [State.reset]
  cellsKeyed := by simp [State.reset]
  withinCapacity := by simp [State.reset]

/-- Every integer is a word under the default parameters (00_scope.md R7, R8). -/
theorem representable_default (v : Int) : representable Config.defaultParams v = true := rfl

theorem rangeInv_reset : RangeInv State.reset where
  width := rfl
  ip := representable_default _
  rb := representable_default _
  cells := fun _ _ => representable_default _
  inputs := fun _ _ => representable_default _
  outData := fun _ _ => representable_default _
  outputs := fun _ _ => representable_default _

theorem statusInv_reset : StatusInv State.reset :=
  StatusInv.of_no_record rfl (.inl rfl) (by simp [State.reset])

/-- Settles O50: each of the three invariants at reset is a lemma above. -/
theorem resetMeetsTheInvariants : Obligations.ResetMeetsTheInvariants where
  memory := memoryInv_reset
  range := rangeInv_reset
  status := statusInv_reset

/-! ### The numbers (10_state.md R27; 60_exceptions.md R221) -/

theorem ofCode_code (st : Status) : Status.ofCode st.code = some st := by
  cases st <;> rfl

/-- Settles O56: the numbers are read back status by status, and the two tables are computed. -/
theorem statusAndFaultNumbers : Obligations.StatusAndFaultNumbers :=
  ⟨ofCode_code, rfl, rfl, rfl⟩

end Sys2Proof.Machine
end

