-- ==== Sys2Proof/Proofs/Memory.lean ====
section
/-! SUPPORT. The memory a write leaves: its keys, its cells and its size; that every end of an
instruction keeps `MemoryInv`; and that what is written is what is fetched next. -/

namespace Sys2Proof.Machine

/-! ### The sparse keys after a write (20_memory.md R53) -/

theorem sparse_write_of_lt {n a : Nat} (h : a < n) (m : Memory) (v : Int) :
    (m.write n a v).sparse = m.sparse := by
  simp [Memory.write, h]

theorem sparse_write_of_le {n a : Nat} (h : n ≤ a) (m : Memory) (v : Int) :
    (m.write n a v).sparse = putKey m.sparse a := by
  simp [Memory.write, Nat.not_lt.mpr h]

/-- A write adds the key of its own address, and only at or above N. -/
theorem mem_sparse_write {m : Memory} {n a k : Nat} {v : Int} :
    k ∈ (m.write n a v).sparse ↔ k ∈ m.sparse ∨ (k = a ∧ n ≤ a) := by
  rcases Nat.lt_or_ge a n with ha | ha
  · simp [sparse_write_of_lt ha, Nat.not_le.mpr ha]
  · simp [sparse_write_of_le ha, mem_putKey, ha, or_comm]

/-- A write with a key that is there already adds none. -/
theorem sparse_write_of_mem {m : Memory} (hw : m.wf = true) {a : Nat} (h : a ∈ m.sparse) (n : Nat) (v : Int) :
    (m.write n a v).sparse = m.sparse := by
  have hk : keysWf m.sparse = true := (Bool.and_eq_true_iff.mp hw).2
  rcases Nat.lt_or_ge a n with ha | ha
  · exact sparse_write_of_lt ha m v
  · rw [sparse_write_of_le ha, putKey_of_mem hk h]

theorem length_sparse_write_le (m : Memory) (n a : Nat) (v : Int) :
    (m.write n a v).sparse.length ≤ m.sparse.length + 1 := by
  rcases Nat.lt_or_ge a n with ha | ha
  · simp [sparse_write_of_lt ha]
  · simpa [sparse_write_of_le ha] using length_putKey_le m.sparse a

/-! ### The memory invariant (20_memory.md R52, R53, R67) -/

namespace MemoryInv

variable {s t : State}

/-- The invariant speaks of the memory, N and the parameters only. -/
theorem of_eq (h : MemoryInv s) (hm : t.mem = s.mem) (hn : t.n = s.n) (hp : t.params = s.params) :
    MemoryInv t where
  canonical := hm ▸ h.canonical
  keysAbove := hm ▸ hn ▸ h.keysAbove
  cellsKeyed := hm ▸ hn ▸ h.cellsKeyed
  withinCapacity := hm ▸ hp ▸ h.withinCapacity

/-- Where there is room a write does not exceed the capacity: it adds no key in the dense region or
with a key that is there, and one key while fewer than the capacity are held (R67). -/
theorem length_write (h : MemoryInv s) {a : Nat} (hroom : HasRoom s a) (v : Int) {k : Nat}
    (hk : s.params.sparseCapacity = some k) : (s.mem.write s.n a v).sparse.length ≤ k := by
  rcases hroom with hlt | hkey | hless
  · rw [sparse_write_of_lt hlt]
    exact h.withinCapacity k hk
  · rw [sparse_write_of_mem h.canonical hkey]
    exact h.withinCapacity k hk
  · exact (length_sparse_write_le s.mem s.n a v).trans (hless k hk)

/-- A write where there is room keeps the invariant. -/
theorem write (h : MemoryInv s) {a : Nat} (hroom : HasRoom s a) (v : Int) :
    MemoryInv { s with mem := s.mem.write s.n a v } where
  canonical := wf_write h.canonical s.n a v
  keysAbove k hk := by
    rcases mem_sparse_write.mp hk with hold | ⟨rfl, hnew⟩
    · exact h.keysAbove k hold
    · exact hnew
  cellsKeyed c hc hn := by
    rcases mem_write_cells hc with rfl | hold
    · exact mem_sparse_write.mpr (.inr ⟨rfl, hn⟩)
    · exact mem_sparse_write.mpr (.inl (h.cellsKeyed c hold hn))
  withinCapacity _ hk := h.length_write hroom v hk

/-- Only a store and an input write memory, and each has checked that there is room (40_sequencer.md R117). -/
theorem of_ends (h : MemoryInv s) {i : Instr} (he : Ends s i t) : MemoryInv t := by
  cases he with
  | store _ ea v _ _ _ hroom => exact (h.write hroom v).of_eq rfl rfl rfl
  | input _ ea v _ _ _ hroom => exact (h.write hroom v).of_eq rfl rfl rfl
  | fault | awaitIn | awaitOut | output | jump | base | halt => exact h.of_eq rfl rfl rfl

theorem step (h : MemoryInv s) (hs : step s = .next t) : MemoryInv t := by
  rcases step_ends hs with ⟨-, rfl⟩ | ⟨-, i, he⟩
  · exact h.of_eq rfl rfl rfl
  · exact h.of_ends he

end MemoryInv

/-- Settles O47: the step either is none or is an end of an instruction, and the two ends that write
do so where there is room (20_memory.md R53, R67). -/
theorem stepKeepsMemoryInv : Obligations.StepKeepsMemoryInv :=
  fun _ _ h hs => h.step hs

/-! ### The word written is the word fetched (20_memory.md R71, R73) -/

/-- An arithmetic instruction that takes no fault commits the result of its two source values to its
destination (41_arithmetic.md R140, R141). -/
theorem arithmetic_commits {f : Int → Int → Int} {a b c : Mode} {s t : State}
    (h : settle s (arithmetic f a b c s) = .next t) (ht : t.status ≠ .faulted) :
    ∃ ea, dest s 2 c = .ok ea ∧ t = commitWrite s ea (f (srcValue s 0 a) (srcValue s 1 b)) (s.ip + 4) := by
  rcases settle_next h with h | ⟨c, -, rfl⟩
  · obtain ⟨v0, v1, ea, h0, h1, h2, -, -, -, rfl⟩ := arithmetic_ok.mp h
    obtain ⟨-, rfl⟩ := value_ok.mp h0
    obtain ⟨-, rfl⟩ := value_ok.mp h1
    exact ⟨ea, h2, rfl⟩
  · exact absurd rfl ht

theorem read_commitWrite_same (s : State) (a : Nat) (v ip : Int) : (commitWrite s a v ip).mem.read a = v :=
  read_write_same s.mem s.n a v

theorem fetch_of_ip_eq {s : State} {a : Nat} (h : s.ip = a) : fetch s = .ok (s.mem.read a) := by
  simp [fetch_eq, h]

/-- Settles O40: the commit of ADD writes the sum at its destination and sets `ip` to `ip + 4`, and a
fetch at the destination reads what was written. -/
theorem writtenWordIsFetchedNext : Obligations.WrittenWordIsFetchedNext := by
  intro s t a b c hx hrun
  obtain ⟨ea, hd, rfl⟩ := arithmetic_commits hx (by simp [hrun])
  refine ⟨rfl, fun ea' hd' => ?_⟩
  obtain rfl : ea = ea' := Except.ok.inj (hd.symm.trans hd')
  refine ⟨read_commitWrite_same .., fun hnext => ?_⟩
  rw [fetch_of_ip_eq (a := ea) hnext.symm, read_commitWrite_same]

end Sys2Proof.Machine
end

