-- ==== Sys2Proof/Proofs/HostMoves.lean ====
section
/-! SUPPORT. The moves of the host and of the environment: when a poke is accepted and what it
leaves, and that every move keeps the three invariants. -/

namespace Sys2Proof.Machine

/-! ### The poke (20_memory.md R61) -/

theorem mayPoke_eq_true {s : State} : mayPoke s = true ↔
    s.status = .ready ∨ s.status = .yielded ∨ s.status = .halted ∨ s.status = .faulted := by
  cases hst : s.status <;> simp [mayPoke, hst]

theorem mayPoke_eq_false {s : State} : mayPoke s = false ↔
    s.status = .running ∨ s.status = .awaitIn ∨ s.status = .awaitOut := by
  cases hst : s.status <;> simp [mayPoke, hst]

theorem poke_refused {s : State} (h : mayPoke s = false) (a : Nat) (v : Int) :
    poke s a v = .refused .pokeWhileRunning := by
  simp [poke, h]

theorem poke_accepted {s : State} {a : Nat} {v : Int} (h : mayPoke s = true)
    (hv : representable s.params v = true) (hroom : HasRoom s a) :
    poke s a v = .next { s with mem := s.mem.write s.n a v } := by
  simp [poke, h, hv, sparseFull_eq_false.mpr hroom]

/-- Settles O54: the status decides whether a poke is accepted, and an accepted poke is one write. -/
theorem pokeOnlyWhileStopped : Obligations.PokeOnlyWhileStopped := by
  intro s a v
  refine ⟨fun hst => poke_refused (mayPoke_eq_false.mpr hst) a v, fun hst hv hroom => ?_⟩
  exact ⟨_, poke_accepted (mayPoke_eq_true.mpr hst) hv hroom, rfl, read_write_same s.mem s.n a v,
    fun _ hb => read_write_ne hb s.mem s.n v, fun _ => mem_sparse_write⟩

/-! ### Moves at a port (42_io.md R150) -/

/-- A value presented was checked to be a word; the other port moves add none. -/
theorem RangeInv.portAct {s t : State} (h : RangeInv s) {m : PortMove} (hm : portAct s m = .next t) :
    RangeInv t := by
  cases m with
  | provide v =>
    obtain ⟨rfl, hv, -⟩ := provide_next hm
    exact { h with
      inputs := fun w hw => by
        rcases (by simpa using hw : w ∈ s.ports.inQueue ∨ w = v) with hw | rfl
        · exact h.inputs w hw
        · exact hv }
  | close => cases hm; exact { h with }
  | ready b => cases hm; exact { h with }
  | drain => cases hm; exact { h with outputs := fun w hw => h.outputs w (List.mem_of_mem_tail hw) }

/-- What an engine waits at does not depend on the ports (40_sequencer.md R122). -/
theorem StatusInv.of_ports {s : State} (h : StatusInv s) {p : Ports} (hp : ¬(p.inTake = true ∧ p.outPut = true)) :
    StatusInv { s with ports := p } := { h with onePulse := hp }

/-! ### Every move keeps the three invariants -/

namespace Inv

variable {s t : State}

theorem portAct (h : Inv s) {m : PortMove} (hm : portAct s m = .next t) : Inv t := by
  have hrange : RangeInv t := h.range.portAct hm
  obtain ⟨ht, htake, hput⟩ := portAct_next hm
  have hp : ¬(t.ports.inTake = true ∧ t.ports.outPut = true) := by
    rw [htake, hput]
    exact h.status.onePulse
  exact {
    memory := ht ▸ h.memory.of_eq rfl rfl rfl
    range := hrange
    status := ht ▸ h.status.of_ports hp }

/-- An engine the run command starts holds no record, as it is not FAULTED (40_sequencer.md R125). -/
theorem runCommand (h : Inv s) : Inv (runCommand s) := by
  rcases runCommand_cases s with ⟨heq, hst⟩ | ⟨heq, -⟩
  · have hf : s.fault = none := by
      by_contra hf
      rcases hst with hst | hst <;> simp [h.status.faulted.mpr hf] at hst
    rw [heq]
    exact {
      memory := h.memory.of_eq rfl rfl rfl
      range := { h.range with }
      status := StatusInv.of_no_record hf (.inr (.inl rfl)) h.status.onePulse }
  · rwa [heq]

/-- No suspended engine is poked, so none is left waiting at a word that changed (20_memory.md R61). -/
theorem write (h : Inv s) {a : Nat} {v : Int} (hst : mayPoke s = true) (hv : representable s.params v = true)
    (hroom : HasRoom s a) : Inv { s with mem := s.mem.write s.n a v } where
  memory := h.memory.write hroom v
  range := { h.range with cells := h.range.cells_write s.n a hv }
  status := { h.status with
    awaitIn := fun (hw : s.status = .awaitIn) => by simp [mayPoke, hw] at hst
    awaitOut := fun (hw : s.status = .awaitOut) => by simp [mayPoke, hw] at hst }

theorem act (h : Inv s) {m : Move} (hm : act s m = .next t) : Inv t := by
  rcases act_next hm with ⟨-, rfl⟩ | ⟨a, v, -, rfl, hst, hv, hroom⟩ | ⟨p, -, hp⟩
  · exact h.runCommand
  · exact h.write hst hv hroom
  · exact h.portAct hp

end Inv

/-- Settles O52: a move is the run command, one accepted poke or a port move, and each keeps the
three invariants. -/
theorem hostMovesKeepTheInvariants : Obligations.HostMovesKeepTheInvariants :=
  fun _ _ _ h hm => h.act hm

end Sys2Proof.Machine
end

