-- ==== Sys2Proof/Proofs/Encoding.lean ====
section
/-! SUPPORT. The words of an instruction: what the decoder answers is fixed by the operation and the
used mode digits, and the encoder writes the smallest word with those. Everything is said of a
non-negative word, a `Nat`; a negative one is refused before any field is extracted
(30_encoding.md R83). -/

namespace Sys2Proof

open Sys2Proof.Machine (FaultCode)

/-! ### Decimal digits (00_scope.md R9) -/

theorem digit_zero (w : Nat) : digit w 0 = w % 10 := by simp [digit]

theorem digit_succ (w k : Nat) : digit w (k + 1) = digit (w / 10) k := by
  rw [digit, digit, Nat.pow_succ', Nat.div_div_eq_div_mul]

/-- The mode digits stand above the two digits of the operation (30_encoding.md R85). -/
theorem digit_add_two (w k : Nat) : digit w (k + 2) = digit (w / 100) k := by
  rw [digit_succ, digit_succ, Nat.div_div_eq_div_mul]

theorem Mode.digit_le (m : Mode) : m.digit ≤ 2 := by
  cases m <;> decide

/-! ### Mode digits as a number (30_encoding.md R82) -/

theorem digit_flagsOf {ms : List Mode} {k : Nat} {m : Mode} (h : ms[k]? = some m) :
    digit (flagsOf ms) k = m.digit := by
  induction ms generalizing k with
  | nil => simp at h
  | cons m₀ ms ih =>
    have hm₀ : m₀.digit ≤ 2 := m₀.digit_le
    cases k with
    | zero =>
      obtain rfl : m₀ = m := by simpa using h
      rw [digit_zero, flagsOf]
      omega
    | succ k =>
      rw [digit_succ, flagsOf, show (m₀.digit + 10 * flagsOf ms) / 10 = flagsOf ms by omega]
      exact ih (by simpa using h)

theorem flagsOf_le {ms : List Mode} {f : Nat} (h : ∀ (k : Nat) (m : Mode), ms[k]? = some m → digit f k = m.digit) :
    flagsOf ms ≤ f := by
  induction ms generalizing f with
  | nil => exact Nat.zero_le f
  | cons m₀ ms ih =>
    have hlow : f % 10 = m₀.digit := digit_zero f ▸ h 0 m₀ rfl
    have hhigh : flagsOf ms ≤ f / 10 := ih fun k m hm => digit_succ f k ▸ h (k + 1) m (by simpa using hm)
    rw [flagsOf]
    omega

/-- No operation has more than three slots (30_encoding.md R86). -/
theorem modes_length_le (i : Instr) : i.modes.length ≤ 3 := by
  cases i <;> simp [Instr.modes]

theorem flagsOf_eq_sum {ms : List Mode} (hlen : ms.length ≤ 3) {d : Nat → Nat}
    (hd : ∀ k, d k = (ms[k]?.map Mode.digit).getD 0) : flagsOf ms = d 0 + 10 * d 1 + 100 * d 2 := by
  match ms with
  | [] => simp [flagsOf, hd]
  | [_] => simp [flagsOf, hd]
  | [_, _] => simp [flagsOf, hd]
  | [_, _, _] =>
    simp [flagsOf, hd]
    omega
  | _ :: _ :: _ :: _ :: _ =>
    simp at hlen
    omega

/-! ### The encoder's word (30_encoding.md R96) -/

/-- The canonical word, a natural number. -/
def canonicalWord (i : Instr) : Nat := i.opcode + 100 * flagsOf i.modes

theorem encode_eq_canonicalWord (i : Instr) : encode i = canonicalWord i := rfl

theorem canonicalWord_mod (i : Instr) : canonicalWord i % 100 = i.opcode := by
  have hop : i.opcode < 100 := (opcode_cases i).2
  rw [canonicalWord]
  omega

theorem canonicalWord_div (i : Instr) : canonicalWord i / 100 = flagsOf i.modes := by
  have hop : i.opcode < 100 := (opcode_cases i).2
  rw [canonicalWord]
  omega

theorem digit_canonicalWord {i : Instr} {k : Nat} {m : Mode} (h : i.modes[k]? = some m) :
    digit (canonicalWord i) (k + 2) = m.digit := by
  rw [digit_add_two, canonicalWord_div]
  exact digit_flagsOf h

/-- The slot kinds of a known operation are those of its instructions. -/
theorem kinds_eq {op : Nat} {kinds : List SlotKind} (hk : slotKinds op = some kinds) {i : Instr}
    (hop : op = i.opcode) : i.kinds = kinds :=
  Option.some.inj ((opcode_cases i).1.symm.trans (hop ▸ hk))

/-! ### The decoder through its loop over the slots (30_encoding.md R98) -/

theorem decode_of_neg {w : Int} (h : w < 0) : decode w = .error .negativeOpcodeWord := if_pos h

theorem decode_natCast (n : Nat) : decode n = decodeOperation n := by
  simp [decode]

theorem toNat_natCast_mod (n : Nat) : ((n : Int) % 100).toNat = n % 100 := by omega

theorem decode_ok_iff_decodeSlots {n : Nat} {i : Instr} :
    decode n = .ok i ↔ n % 100 = i.opcode ∧ decodeSlots n 0 i.kinds = .ok i.modes := by
  rw [decode_natCast]
  constructor
  · intro h
    cases hk : slotKinds (n % 100) with
    | none => simp [decodeOperation_unknown hk] at h
    | some ks =>
      obtain ⟨hmodes, hop⟩ := decodeOperation_modes hk
      have hop : n % 100 = i.opcode := (hop i h).symm
      obtain rfl : i.kinds = ks := kinds_eq hk hop
      exact ⟨hop, by rw [← hmodes, h]; rfl⟩
  · rintro ⟨hop, hslots⟩
    obtain ⟨hmodes, hopOf⟩ := decodeOperation_modes (hop ▸ (opcode_cases i).1)
    rw [hslots] at hmodes
    cases hd : decodeOperation n with
    | error c => simp [hd, Except.map] at hmodes
    | ok j =>
      have hj : j.modes = i.modes := by simpa [hd, Except.map] using hmodes
      rw [instr_ext ((hopOf j hd).trans hop) hj]

theorem decode_error_iff_decodeSlots {n : Nat} {kinds : List SlotKind} {c : FaultCode}
    (hk : slotKinds (n % 100) = some kinds) : decode n = .error c ↔ decodeSlots n 0 kinds = .error c := by
  rw [decode_natCast, ← (decodeOperation_modes hk).1]
  cases decodeOperation n <;> simp [Except.map]

/-! ### What a word decodes to -/

theorem decodeSlot_ok {kind : SlotKind} {d : Nat} {m : Mode} :
    decodeSlot kind d = .ok m ↔ d = m.digit ∧ (kind = .dst → m.legalDst = true) := by
  cases kind with
  | src => simp [decodeSlot_src_ok]
  | dst => simp [decodeSlot_dst_ok]

theorem decodeSlots_modes_iff {n : Nat} {i : Instr} :
    decodeSlots n 0 i.kinds = .ok i.modes ↔
      i.wf = true ∧ ∀ (k : Nat) (m : Mode), i.modes[k]? = some m → digit n (k + 2) = m.digit := by
  have hkind : ∀ (k : Nat) (m : Mode), i.modes[k]? = some m → ∃ kd, i.kinds[k]? = some kd := by
    intro k m hm
    have hlt : k < i.kinds.length := kinds_length i ▸ (List.getElem?_eq_some_iff.mp hm).1
    exact ⟨_, List.getElem?_eq_getElem hlt⟩
  simp only [decodeSlots_ok, decodeSlotAt, decodeSlot_ok, Nat.zero_add, wf_iff_slots]
  constructor
  · rintro ⟨-, h⟩
    refine ⟨fun k m hm hd => (h k m _ hm hd).2 rfl, fun k m hm => ?_⟩
    obtain ⟨kd, hkd⟩ := hkind k m hm
    exact (h k m kd hm hkd).1
  · rintro ⟨hwf, hdigit⟩
    exact ⟨(kinds_length i).symm, fun k m kd hm hkd => ⟨hdigit k m hm, fun hd => hwf k m hm (hd ▸ hkd)⟩⟩

theorem decode_ok_iff_digits {n : Nat} {i : Instr} :
    decode n = .ok i ↔ n % 100 = i.opcode ∧ i.wf = true ∧
      ∀ (k : Nat) (m : Mode), i.modes[k]? = some m → digit n (k + 2) = m.digit := by
  rw [decode_ok_iff_decodeSlots, decodeSlots_modes_iff]

theorem decode_canonicalWord {i : Instr} (hwf : i.wf = true) : decode (canonicalWord i) = .ok i :=
  decode_ok_iff_digits.mpr ⟨canonicalWord_mod i, hwf, fun _ _ => digit_canonicalWord⟩

/-- Settles O1: the canonical word has the operation and the mode digits of its instruction. -/
theorem decodeEncodeRoundTrip : Obligations.DecodeEncodeRoundTrip :=
  fun _ hwf => decode_canonicalWord hwf

/-- Settles O2: a negative word decodes to nothing, and any other through the loop over its slots. -/
theorem decodesExactlyItsWords : Obligations.DecodesExactlyItsWords := by
  intro w i
  by_cases hw : 0 ≤ w
  · lift w to Nat using hw
    have hmod : (w : Int) % 100 = i.opcode ↔ w % 100 = i.opcode := by omega
    rw [decode_ok_iff_digits, hmod, Int.toNat_natCast]
    simp
  · simp [decode_of_neg (Int.not_le.mp hw), hw]

/-! ### What a word is refused for -/

theorem decode_error_iff_firstBad {n : Nat} {kinds : List SlotKind} {c : FaultCode}
    (hk : slotKinds (n % 100) = some kinds) : decode n = .error c ↔
      ∃ (k : Nat) (kind : SlotKind), kinds[k]? = some kind ∧
        ((3 ≤ digit n (k + 2) ∧ c = .invalidMode) ∨
          (kind = .dst ∧ digit n (k + 2) = 1 ∧ c = .invalidDestinationMode)) ∧
        ∀ (j : Nat) (kj : SlotKind), j < k → kinds[j]? = some kj →
          digit n (j + 2) ≤ 2 ∧ ¬(kj = .dst ∧ digit n (j + 2) = 1) := by
  rw [decode_error_iff_decodeSlots hk, decodeSlots_error]
  simp only [decodeSlotAt, decodeSlot_error, decodeSlot_ok_iff, Nat.zero_add]

/-- No slot's fault is `UnknownOpcode`, so it is that of the operation alone. -/
theorem decode_unknown_iff {n : Nat} : decode n = .error .unknownOpcode ↔ slotKinds (n % 100) = none := by
  cases hk : slotKinds (n % 100) with
  | none => simp [decode_natCast, decodeOperation_unknown hk]
  | some kinds => simp [decode_error_iff_firstBad hk]

/-- Settles O3: the operations without slot kinds are the values 0 and 10 to 98. -/
theorem unknownOperationsAreRefused : Obligations.UnknownOperationsAreRefused := by
  refine ⟨fun w => ?_, rfl⟩
  by_cases hw : 0 ≤ w
  · lift w to Nat using hw
    rw [decode_unknown_iff, slotKinds_eq_none (Nat.mod_lt w (by decide))]
    omega
  · simp [decode_of_neg (Int.not_le.mp hw), hw]

/-- A word with a bad mode digit is no instruction's; and as a destination is the last slot, no
destination in immediate mode stands before the bad digit. -/
theorem decode_invalidMode {n k : Nat} {kinds : List SlotKind} (hk : slotKinds (n % 100) = some kinds)
    (hlt : k < kinds.length) (hbad : 3 ≤ digit n (k + 2)) : decode n = .error .invalidMode := by
  cases hd : decode n with
  | ok i =>
    obtain ⟨hop, -, hdigit⟩ := decode_ok_iff_digits.mp hd
    obtain rfl : i.kinds = kinds := kinds_eq hk hop
    have hlt : k < i.modes.length := kinds_length i ▸ hlt
    have hle : (i.modes[k]).digit ≤ 2 := Mode.digit_le _
    have heq : digit n (k + 2) = (i.modes[k]).digit := hdigit k _ (List.getElem?_eq_getElem hlt)
    omega
  | error c =>
    obtain ⟨j, kind, hj, ⟨-, rfl⟩ | ⟨rfl, hone, -⟩, hfirst⟩ := (decode_error_iff_firstBad hk).mp hd
    · rfl
    · have hlast : j + 1 = kinds.length := dst_is_last hk hj
      have hne : k ≠ j := by
        rintro rfl
        omega
      have hle : digit n (k + 2) ≤ 2 := (hfirst k _ (by omega) (List.getElem?_eq_getElem hlt)).1
      omega

/-- Settles O4: the first bad slot of such a word is bad by its mode digit. -/
theorem invalidModeDigitIsRefused : Obligations.InvalidModeDigitIsRefused := by
  refine ⟨fun w kinds k hw hk hlt hbad => ?_, rfl⟩
  lift w to Nat using hw
  exact decode_invalidMode (toNat_natCast_mod w ▸ hk) hlt hbad

/-- Settles O5: the decoder's loop fails at the first slot that fails. -/
theorem firstBadSlotDecides : Obligations.FirstBadSlotDecides := by
  intro w kinds c hw hk
  lift w to Nat using hw
  exact decode_error_iff_firstBad (toNat_natCast_mod w ▸ hk)

/-! ### Unused digits and the shortest word (30_encoding.md R91, R96) -/

theorem decodeSlots_congr {n n' : Nat} {kinds : List SlotKind} {i : Nat}
    (h : ∀ k, k < kinds.length → digit n' (i + k + 2) = digit n (i + k + 2)) :
    decodeSlots n' i kinds = decodeSlots n i kinds := by
  induction kinds generalizing i with
  | nil => rfl
  | cons kd ks ih =>
    have hhead : digit n' (i + 2) = digit n (i + 2) := h 0 (by simp)
    have htail : decodeSlots n' (i + 1) ks = decodeSlots n (i + 1) ks := ih fun k hk => by
      rw [show i + 1 + k = i + (k + 1) by omega]
      exact h (k + 1) (by simpa using hk)
    simp only [decodeSlots, decodeSlotAt, hhead, htail]

/-- The operation and the used mode digits fix what a word decodes to. -/
theorem decode_congr {n n' : Nat} {kinds : List SlotKind} (hop : n' % 100 = n % 100)
    (hk : slotKinds (n % 100) = some kinds)
    (hdigit : ∀ k, k < kinds.length → digit n' (k + 2) = digit n (k + 2)) : decode n' = decode n := by
  have hslots : decodeSlots n' 0 kinds = decodeSlots n 0 kinds :=
    decodeSlots_congr fun k hlt => by simpa using hdigit k hlt
  cases hd : decode n with
  | error c =>
    rw [decode_error_iff_decodeSlots hk] at hd
    exact (decode_error_iff_decodeSlots (hop ▸ hk)).mpr (hslots.trans hd)
  | ok i =>
    obtain ⟨hopi, hmodes⟩ := decode_ok_iff_decodeSlots.mp hd
    obtain rfl : i.kinds = kinds := kinds_eq hk hopi
    exact decode_ok_iff_decodeSlots.mpr ⟨hop.trans hopi, hslots.trans hmodes⟩

/-- Settles O6: the used digits fix the answer, and the rule's examples are computed. -/
theorem unusedDigitsAreIgnored : Obligations.UnusedDigitsAreIgnored := by
  refine ⟨fun w w' kinds hw hw' hop hk hdigit => ?_, by decide⟩
  lift w to Nat using hw
  lift w' to Nat using hw'
  exact decode_congr (by omega) (toNat_natCast_mod w ▸ hk) hdigit

theorem encode_eq_sum (i : Instr) {d : Nat → Nat} (hd : ∀ k, d k = (i.modes[k]?.map Mode.digit).getD 0) :
    encode i = i.opcode + 100 * d 0 + 1000 * d 1 + 10000 * d 2 := by
  have hflags : flagsOf i.modes = d 0 + 10 * d 1 + 100 * d 2 := flagsOf_eq_sum (modes_length_le i) hd
  rw [encode, hflags]
  omega

theorem canonicalWord_le {n : Nat} {i : Instr} (h : decode n = .ok i) : canonicalWord i ≤ n := by
  obtain ⟨hop, -, hdigit⟩ := decode_ok_iff_digits.mp h
  have hflags : flagsOf i.modes ≤ n / 100 := flagsOf_le fun k m hm => digit_add_two n k ▸ hdigit k m hm
  rw [canonicalWord]
  omega

theorem nonneg_of_decode_ok {w : Int} {i : Instr} (h : decode w = .ok i) : 0 ≤ w :=
  ((decodesExactlyItsWords w i).mp h).1

/-- Settles O7: the formula from the at most three mode digits, minimality digit by digit, and the
other words of the instruction from the canonical one. -/
theorem canonicalWordIsShortest : Obligations.CanonicalWordIsShortest := by
  intro i hwf
  refine ⟨fun d hd => encode_eq_sum i hd, fun w h => ?_, fun w hw hop hdigit => ?_⟩
  · lift w to Nat using nonneg_of_decode_ok h
    exact Int.ofNat_le.mpr (canonicalWord_le h)
  · lift w to Nat using hw
    rw [encode_eq_canonicalWord] at hop
    have hk : slotKinds (canonicalWord i % 100) = some i.kinds := canonicalWord_mod i ▸ (opcode_cases i).1
    exact (decode_congr (by omega) hk hdigit).trans (decode_canonicalWord hwf)

/-- Settles O8: the words are fixed, and the decoder is run on each. -/
theorem sampleWordsDecode : Obligations.SampleWordsDecode := by
  unfold Obligations.SampleWordsDecode
  decide

end Sys2Proof
end

