-- ==== Sys2Proof/Proofs/DecodeFault.lean ====
section
/-! SUPPORT. A fetched word the decoder refuses: the step takes the fault (40_sequencer.md R113). -/

namespace Sys2Proof.Machine

theorem step_of_decode_error {s : State} {c : FaultCode} (he : enabled s = true) (hip : 0 ≤ s.ip)
    (hd : decode (s.mem.read s.ip.toNat) = .error c) : step s = .next (Faulted s c) := by
  have hfetch : fetch s = .ok (s.mem.read s.ip.toNat) := by simp [fetch_eq, Int.not_lt.mpr hip]
  simp only [step, he, hfetch, hd, if_true, raise_eq]

/-- The record of a fault after the fetch holds the fetched word (60_exceptions.md R221). -/
theorem faulted_of_nonneg_ip {s : State} (hip : 0 ≤ s.ip) (c : FaultCode) : Faulted s c = { s with
    status := .faulted, fault := some ⟨c, s.ip, some (s.mem.read s.ip.toNat)⟩, ports := s.ports.quiet } := by
  simp [Faulted, Int.not_lt.mpr hip]

/-- Settles O28: a negative word is refused before any field is extracted, and the step that fetched
it takes that fault. -/
theorem negativeOpcodeWordFaults : Obligations.NegativeOpcodeWordFaults := by
  refine ⟨rfl, fun w i hw => by simp [decode_of_neg hw], fun s he hip hneg => ?_⟩
  rw [step_of_decode_error he hip (decode_of_neg hneg), faulted_of_nonneg_ip hip]
  rfl

end Sys2Proof.Machine
end

