-- ==== Sys2Proof/Proofs/OperandForms.lean ====
section
/-! SUPPORT. The operand forms with their checks written out as conditions, in the order they are
made (40_sequencer.md R114, R115, R120). -/

namespace Sys2Proof.Machine

/-- What follows a range check runs on the value checked, or not at all. -/
theorem checkRange_bind {α : Type} (s : State) (v : Int) (f : Int → Except FaultCode α) :
    (checkRange s v >>= f) = if representable s.params v = false then .error .overflow else f v := by
  unfold checkRange
  cases representable s.params v <;> rfl

theorem memRead_eq_ite (s : State) (a : Int) :
    memRead s a = if a < 0 then .error .negativeAddress else .ok (s.mem.read a.toNat) := by
  unfold memRead checkAddress
  split <;> rfl

theorem argWord_eq_ite (s : State) (i : Nat) :
    argWord s i = if representable s.params (s.ip + 1 + i) = false then .error .overflow
      else if s.ip + 1 + i < 0 then .error .negativeAddress
      else .ok (s.mem.read (s.ip + 1 + i).toNat) := by
  rw [argWord, checkRange_bind, memRead_eq_ite]

/-- Settles O9: the argument word's own checks come first, and then those of the access its mode
asks for. -/
theorem sourceSlotValue : Obligations.SourceSlotValue := by
  intro s i m
  rw [value, argWord_eq_ite]
  split_ifs
  · rfl
  · rfl
  · cases m with
    | immediate => rfl
    | position => exact memRead_eq_ite s _
    | relative => exact (checkRange_bind s _ _).trans (by rw [memRead_eq_ite])

/-- Settles O10: as for a source slot, but the address is checked and not read. -/
theorem destinationSlotAddress : Obligations.DestinationSlotAddress := by
  intro s i m hm
  rw [dest, argWord_eq_ite]
  split
  · rfl
  · split
    · rfl
    · cases m with
      | immediate => simp [Mode.legalDst] at hm
      | position => rfl
      | relative => exact checkRange_bind s _ _

end Sys2Proof.Machine
end

