-- ==== Sys2Proof/Proofs/Sequencer.lean ====
section
/-! SUPPORT. The step up to the dispatch: when one is enabled, the fetch, the decoder's fault or the
instruction's own rule, and that there is always an answer (40_sequencer.md R110 to R113, R124). -/

namespace Sys2Proof.Machine

/-! ### The fetch (R112) -/

theorem fetch_of_nonneg {s : State} (hip : 0 ≤ s.ip) : fetch s = .ok (s.mem.read s.ip.toNat) := by
  simp [fetch_eq, Int.not_lt.mpr hip]

theorem read_of_unlisted {m : Memory} {a : Nat} (h : ∀ c ∈ m.cells, c.1 ≠ a) : m.read a = 0 :=
  (read_mem m a).resolve_right fun hmem => h _ hmem rfl

theorem step_of_neg_ip {s : State} (he : enabled s = true) (hip : s.ip < 0) :
    step s = .next (Faulted s .negativeAddress) := by
  simp [step, he, fetch_eq, hip, raise_eq]

/-- Settles O27: the fetch reads memory unless `ip` is negative, and an unlisted word reads 0. -/
theorem fetchFaultsOnlyAtNegativeIp : Obligations.FetchFaultsOnlyAtNegativeIp := by
  refine fun s => ⟨fun hip he => ?_, fetch_of_nonneg, fun hip hun => ?_⟩
  · rw [step_of_neg_ip he hip]
    simp [Faulted, hip, Ports.quiet]
  · rw [fetch_of_nonneg hip, read_of_unlisted hun]

/-! ### The decoded instruction (R111, R113) -/

theorem step_of_decode_ok {s : State} {i : Instr} (he : enabled s = true) (hip : 0 ≤ s.ip)
    (hd : decode (s.mem.read s.ip.toNat) = .ok i) : step s = exec i s := by
  simp [step, he, fetch_of_nonneg hip, hd]

/-- Settles O32: past the fetch and the decoder nothing stands around the instruction's own rule. -/
theorem stepRunsTheDecodedInstruction : Obligations.StepRunsTheDecodedInstruction :=
  fun _ _ => step_of_decode_ok

/-- A word is refused for its sign, for its operation, or for its first bad slot (30_encoding.md R98). -/
theorem decode_error_cases {w : Int} {c : FaultCode} (h : decode w = .error c) :
    c = .negativeOpcodeWord ∨ c = .unknownOpcode ∨ c = .invalidMode ∨ c = .invalidDestinationMode := by
  by_cases hw : 0 ≤ w
  · lift w to Nat using hw
    cases hk : slotKinds (w % 100) with
    | none =>
      rw [decode_unknown_iff.mpr hk] at h
      exact .inr (.inl (Except.error.inj h).symm)
    | some kinds =>
      obtain ⟨_, _, -, ⟨-, hc⟩ | ⟨-, -, hc⟩, -⟩ := (decode_error_iff_firstBad hk).mp h
      · exact .inr (.inr (.inl hc))
      · exact .inr (.inr (.inr hc))
  · rw [decode_of_neg (Int.not_le.mp hw)] at h
    exact .inl (Except.error.inj h).symm

/-- Settles O29: the step that fetched the word takes the decoder's fault, which is one of its four. -/
theorem decodeFaultIsTakenAtOnce : Obligations.DecodeFaultIsTakenAtOnce :=
  fun _ _ he hip hd => ⟨step_of_decode_error he hip hd, decode_error_cases hd⟩

/-! ### Every step answers (R124) -/

theorem settle_answers (s : State) (r : Except FaultCode State) : ∃ t, settle s r = .next t := by
  cases r with
  | ok t => exact ⟨t, rfl⟩
  | error c => exact ⟨raise s c, rfl⟩

/-- No arm of the dispatch ends in a fault or a refusal of the model: all but HALT settle their
checks, and HALT has none. -/
theorem exec_answers (i : Instr) (s : State) : ∃ t, exec i s = .next t := by
  cases i with
  | add | mul | inp | out | jt | jf | lt | eq | arb => exact settle_answers s _
  | halt => exact ⟨commitHalt s, rfl⟩

/-- Settles O34: where no step is enabled the state is kept, a fault of the fetch or of the decoder
is taken, and every instruction answers. -/
theorem everyStepAnswers : Obligations.EveryStepAnswers := by
  intro s
  unfold step
  split
  · split
    · exact ⟨_, rfl⟩
    · split
      · exact ⟨_, rfl⟩
      · exact exec_answers _ s
  · exact ⟨_, rfl⟩

end Sys2Proof.Machine
end

