-- ==== Sys2Proof/Proofs/Commit.lean ====
section
/-! SUPPORT. The commit of an instruction: that it passed every check, and the one state it leaves;
with the two suspensions and the fault this says what every step answers (40_sequencer.md R110,
R117 to R119). -/

namespace Sys2Proof.Machine

/-! ### What a commit leaves -/

/-- The next `ip` (R118). -/
def nextIp (s : State) : Instr → Int
  | .jt a b => if srcValue s 0 a ≠ 0 then srcValue s 1 b else s.ip + 3
  | .jf a b => if srcValue s 0 a = 0 then srcValue s 1 b else s.ip + 3
  | .halt => s.ip
  | i => s.ip + i.width

/-- The status after a commit (R119). -/
def nextStatus (s : State) : Instr → Status
  | .out _ => if s.cfg.yieldOnOutput then .yielded else .running
  | .halt => .halted
  | _ => .running

def nextBase (s : State) : Instr → Int
  | .arb a => s.rb + srcValue s 0 a
  | _ => s.rb

def nextOutData (s : State) : Instr → Option Int
  | .out a => some (srcValue s 0 a)
  | _ => s.outData

/-- The ports after the handshake of a commit (42_io.md R150). -/
def nextPorts (s : State) : Instr → Ports
  | .inp _ => s.ports.take
  | .out a => s.ports.put (srcValue s 0 a)
  | _ => s.ports.quiet

/-- The memory after the one store of an instruction, or after none (20_memory.md R62). -/
def Stores (s : State) (i : Instr) (m : Memory) : Prop :=
  match storeOf s i with
  | none => m = s.mem
  | some (d, v) => ∃ ea, d = .ok ea ∧ m = s.mem.write s.n ea v

/-- Instruction `i` commits whole, from `s` to `t`, the port permitting where it uses one (R117). -/
structure Commits (s : State) (i : Instr) (t : State) : Prop where
  input : (∃ m, i = .inp m) → s.ports.inQueue ≠ []
  output : (∃ m, i = .out m) → s.ports.outReady = true
  store : Stores s i t.mem
  state : t = { s with
    mem := t.mem, ip := nextIp s i, rb := nextBase s i, status := nextStatus s i
    outData := nextOutData s i, ports := nextPorts s i }

/-! ### Each shared meaning commits, and has passed its checks -/

theorem settle_ok {s t : State} {r : Except FaultCode State} (h : settle s r = .next t)
    (ht : t.status ≠ .faulted) : r = .ok t := by
  rcases settle_next h with h | ⟨c, -, rfl⟩
  · exact h
  · exact absurd rfl ht

theorem arithmetic_passes {f : Int → Int → Int} {a b c : Mode} {s t : State}
    (h : settle s (arithmetic f a b c s) = .next t) (ht : t.status ≠ .faulted) :
    firstFault [slotFault s 0 a, slotFault s 1 b, slotFault s 2 c,
      rangeFault s (f (srcValue s 0 a) (srcValue s 1 b)), rangeFault s (s.ip + 4),
      capacityFault s (dstAddress s 2 c)] = none := by
  obtain ⟨v0, v1, ea, h0, h1, h2, hr, hn, hc, -⟩ := arithmetic_ok.mp (settle_ok h ht)
  obtain ⟨-, rfl⟩ := value_ok.mp h0
  obtain ⟨-, rfl⟩ := value_ok.mp h1
  obtain ⟨-, rfl⟩ := dest_ok.mp h2
  simp [firstFault_eq_none, slotFault_eq_none_of_value h0, slotFault_eq_none_of_value h1,
    slotFault_eq_none_of_dest h2, rangeFault_eq_none, capacityFault_eq_none, hr, hn, hc]

theorem comparison_passes {f : Int → Int → Bool} {a b c : Mode} {s t : State}
    (h : settle s (comparison f a b c s) = .next t) (ht : t.status ≠ .faulted) :
    firstFault [slotFault s 0 a, slotFault s 1 b, slotFault s 2 c, rangeFault s (s.ip + 4),
      capacityFault s (dstAddress s 2 c)] = none := by
  obtain ⟨v0, v1, ea, h0, h1, h2, hn, hc, -⟩ := comparison_ok.mp (settle_ok h ht)
  obtain ⟨-, rfl⟩ := dest_ok.mp h2
  simp [firstFault_eq_none, slotFault_eq_none_of_value h0, slotFault_eq_none_of_value h1,
    slotFault_eq_none_of_dest h2, rangeFault_eq_none, capacityFault_eq_none, hn, hc]

theorem comparison_commits {f : Int → Int → Bool} {a b c : Mode} {s t : State}
    (h : settle s (comparison f a b c s) = .next t) (ht : t.status ≠ .faulted) :
    ∃ ea, dest s 2 c = .ok ea ∧
      t = commitWrite s ea (truthWord (f (srcValue s 0 a) (srcValue s 1 b))) (s.ip + 4) := by
  obtain ⟨v0, v1, ea, h0, h1, h2, -, -, rfl⟩ := comparison_ok.mp (settle_ok h ht)
  obtain ⟨-, rfl⟩ := value_ok.mp h0
  obtain ⟨-, rfl⟩ := value_ok.mp h1
  exact ⟨ea, h2, rfl⟩

/-- A jump passed both slots, checked `ip + 3` if it was not taken, and commits to the one or the
other (43_jumps.md R180 to R182). -/
theorem jump_commits {taken : Int → Bool} {a b : Mode} {s t : State}
    (h : settle s (jump taken a b s) = .next t) (ht : t.status ≠ .faulted) :
    slotFault s 0 a = none ∧ slotFault s 1 b = none ∧
      (taken (srcValue s 0 a) = false → rangeFault s (s.ip + 3) = none) ∧
      t = commit s (if taken (srcValue s 0 a) then srcValue s 1 b else s.ip + 3) := by
  obtain ⟨v0, v1, h0, h1, hj⟩ := jump_ok.mp (settle_ok h ht)
  obtain ⟨-, rfl⟩ := value_ok.mp h0
  obtain ⟨-, rfl⟩ := value_ok.mp h1
  refine ⟨slotFault_eq_none_of_value h0, slotFault_eq_none_of_value h1, ?_⟩
  rcases hj with ⟨htk, rfl⟩ | ⟨htk, hr, rfl⟩
  · simp [htk]
  · simp [htk, rangeFault_eq_none, hr]

theorem execArb_commits {a : Mode} {s t : State} (h : execArb a s = .next t) (ht : t.status ≠ .faulted) :
    firstFault (checks s (.arb a)) = none ∧ t = commitBase s (s.rb + srcValue s 0 a) (s.ip + 2) := by
  obtain ⟨r, hr, hok⟩ := execArb_settles a s
  obtain ⟨v, hv, hbase, hn, rfl⟩ := hok t (settle_ok (hr.symm.trans h) ht)
  obtain ⟨-, rfl⟩ := value_ok.mp hv
  simp [firstFault_eq_none, checks, slotFault_eq_none_of_value hv, rangeFault_eq_none, hbase, hn]

theorem truthWord_lessThan (v0 v1 : Int) : truthWord (lessThan v0 v1) = if v0 < v1 then 1 else 0 := by
  simp [truthWord, lessThan]

theorem truthWord_equalTo (v0 v1 : Int) : truthWord (equalTo v0 v1) = if v0 = v1 then 1 else 0 := by
  simp [truthWord, equalTo]

/-! ### Every instruction -/

/-- An instruction that takes no fault passed every check (60_exceptions.md R236 steps 5 to 8). -/
theorem exec_passes {i : Instr} {s t : State} (h : exec i s = .next t) (ht : t.status ≠ .faulted) :
    firstFault (checks s i) = none := by
  cases i with
  | add a b c => exact arithmetic_passes h ht
  | mul a b c => exact arithmetic_passes h ht
  | lt a b c => exact comparison_passes h ht
  | eq a b c => exact comparison_passes h ht
  | inp a => exact execIn_passes h ht
  | out a => exact execOut_passes h ht
  | jt a b =>
    obtain ⟨h0, h1, hn, -⟩ := jump_commits h ht
    simpa [firstFault_eq_none, checks, h0, h1, isZero] using hn
  | jf a b =>
    obtain ⟨h0, h1, hn, -⟩ := jump_commits h ht
    simpa [firstFault_eq_none, checks, h0, h1, isZero] using hn
  | arb a => exact (execArb_commits h ht).1
  | halt => rfl

/-- An instruction either takes a fault, or is an input or an output that the port holds back, or
ends in a status of an engine that goes on, has yielded or has halted. -/
theorem Ends.status_cases {s t : State} {i : Instr} (h : Ends s i t) :
    (∃ c, t = raise s c) ∨
    ((∃ m, i = .inp m) ∧ s.ports.inQueue = [] ∧ t = suspend s .awaitIn) ∨
    ((∃ m, i = .out m) ∧ s.ports.outReady = false ∧ t = suspend s .awaitOut) ∨
    (t.status = .running ∨ t.status = .yielded ∨ t.status = .halted) := by
  cases h with
  | fault _ c => exact .inl ⟨c, rfl⟩
  | awaitIn m hd => exact .inr (.inl ⟨⟨m, rfl⟩, List.head?_eq_none_iff.mp hd, rfl⟩)
  | awaitOut m ho => exact .inr (.inr (.inl ⟨⟨m, rfl⟩, ho, rfl⟩))
  | output m v =>
    refine .inr (.inr (.inr ?_))
    cases hy : s.cfg.yieldOnOutput <;> simp [statusAfterOutput, hy]
  | store | input | jump | base | halt => exact .inr (.inr (.inr (by simp)))

theorem ne_faulted_of_commit {st : Status} (h : st = .running ∨ st = .yielded ∨ st = .halted) :
    st ≠ .faulted := by
  rcases h with rfl | rfl | rfl <;> simp

/-- An instruction that ends in such a status committed whole (R117). -/
theorem exec_commits {i : Instr} {s t : State} (h : exec i s = .next t)
    (hst : t.status = .running ∨ t.status = .yielded ∨ t.status = .halted) : Commits s i t := by
  have ht : t.status ≠ .faulted := ne_faulted_of_commit hst
  cases i with
  | add a b c =>
    obtain ⟨ea, hd, rfl⟩ := arithmetic_commits h ht
    exact ⟨by simp, by simp, ⟨ea, hd, rfl⟩, rfl⟩
  | mul a b c =>
    obtain ⟨ea, hd, rfl⟩ := arithmetic_commits h ht
    exact ⟨by simp, by simp, ⟨ea, hd, rfl⟩, rfl⟩
  | lt a b c =>
    obtain ⟨ea, hd, rfl⟩ := comparison_commits h ht
    exact ⟨by simp, by simp, ⟨ea, hd, by rw [commitWrite_mem, truthWord_lessThan]⟩, rfl⟩
  | eq a b c =>
    obtain ⟨ea, hd, rfl⟩ := comparison_commits h ht
    exact ⟨by simp, by simp, ⟨ea, hd, by rw [commitWrite_mem, truthWord_equalTo]⟩, rfl⟩
  | inp a =>
    obtain ⟨r, hr, hok⟩ := execIn_settles a s
    rcases hok t (settle_ok (hr.symm.trans h) ht) with ⟨-, rfl⟩ | ⟨ea, v, hd, hv, -, -, rfl⟩
    · simp at hst
    · refine ⟨fun _ => List.ne_nil_of_mem (inData_mem hv), by simp, ?_, rfl⟩
      simp only [Stores, storeOf, hv, Option.map_some]
      exact ⟨ea, hd, rfl⟩
  | out a =>
    obtain ⟨r, hr, hok⟩ := execOut_settles a s
    rcases hok t (settle_ok (hr.symm.trans h) ht) with ⟨-, rfl⟩ | ⟨v, hv, ho, -, rfl⟩
    · simp at hst
    · obtain ⟨-, rfl⟩ := value_ok.mp hv
      exact ⟨by simp, fun _ => ho, rfl, rfl⟩
  | jt a b =>
    obtain ⟨-, -, -, rfl⟩ := jump_commits h ht
    have hip : (if !isZero (srcValue s 0 a) then srcValue s 1 b else s.ip + 3) = nextIp s (.jt a b) := by
      simp [nextIp, isZero]
    rw [hip]
    exact ⟨by simp, by simp, rfl, rfl⟩
  | jf a b =>
    obtain ⟨-, -, -, rfl⟩ := jump_commits h ht
    have hip : (if isZero (srcValue s 0 a) then srcValue s 1 b else s.ip + 3) = nextIp s (.jf a b) := by
      simp [nextIp, isZero]
    rw [hip]
    exact ⟨by simp, by simp, rfl, rfl⟩
  | arb a =>
    obtain ⟨-, rfl⟩ := execArb_commits h ht
    exact ⟨by simp, by simp, rfl, rfl⟩
  | halt =>
    cases h
    exact ⟨by simp, by simp, rfl, rfl⟩

/-- Settles O24: read off the state a commit leaves. -/
theorem nextIpAndStatus : Obligations.NextIpAndStatus := by
  intro i s t h hst
  rw [(exec_commits h hst).state]
  exact ⟨rfl, rfl⟩

/-- Settles O35: before the dispatch a step can only fault; the decoded instruction faults, is held
back by its port, or commits whole. -/
theorem stepCommitsSuspendsOrFaults : Obligations.StepCommitsSuspendsOrFaults := by
  intro s t he hs
  rcases step_cases hs with ⟨hne, -⟩ | ⟨-, -, rfl⟩ | ⟨-, -, c, -, rfl⟩ | ⟨-, hip, i, hd, hx⟩
  · simp [he] at hne
  · exact .inl ⟨_, raise_eq s _⟩
  · exact .inl ⟨c, raise_eq s c⟩
  rcases (exec_ends hx).status_cases with ⟨c, rfl⟩ | ⟨hi, hq, rfl⟩ | ⟨hi, ho, rfl⟩ | hst
  · exact .inl ⟨c, raise_eq s c⟩
  · exact .inr ⟨i, hip, hd, exec_passes hx (by simp), .inl ⟨hi, hq, rfl⟩⟩
  · exact .inr ⟨i, hip, hd, exec_passes hx (by simp), .inr (.inl ⟨hi, ho, rfl⟩)⟩
  · have hc : Commits s i t := exec_commits hx hst
    have hpass : firstFault (checks s i) = none := exec_passes hx (ne_faulted_of_commit hst)
    exact .inr ⟨i, hip, hd, hpass, .inr (.inr ⟨hc.input, hc.output, hc.store, hc.state⟩)⟩

end Sys2Proof.Machine
end

