-- ==== Sys2Proof/Proofs/Transitions.lean ====
section
/-! SUPPORT. The status after a step, row by row, and the resumption of a suspended engine at the
same instruction (40_sequencer.md R121, R122). -/

namespace Sys2Proof.Machine

/-! ### When a step is enabled (R110) -/

theorem inValid_iff {s : State} : inValid s = true ↔ s.ports.inQueue ≠ [] := by
  simp [inValid, inData]

theorem enabled_iff {s : State} : enabled s = true ↔ s.status = .running ∨
    (s.status = .awaitIn ∧ s.ports.inQueue ≠ []) ∨ (s.status = .awaitOut ∧ s.ports.outReady = true) := by
  cases hst : s.status <;> simp [enabled, hst, inValid_iff]

theorem step_of_not_enabled {s : State} (h : enabled s = false) : step s = .next (idle s) := by
  simp [step, h]

/-- A closed and empty input stays so under every move, and the engine keeps waiting at it: a poke
and a further value are refused, the run command starts no suspended engine (42_io.md R159). -/
theorem act_closed_input {s t : State} {m : Move} (hst : s.status = .awaitIn) (hq : s.ports.inQueue = [])
    (hc : s.ports.inClosed = true) (hm : act s m = .next t) :
    t.status = .awaitIn ∧ t.ports.inQueue = [] ∧ t.ports.inClosed = true := by
  rcases act_next hm with ⟨-, rfl⟩ | ⟨a, v, -, -, hmay, -⟩ | ⟨p, -, hp⟩
  · simp [runCommand, hst, hq, hc]
  · simp [mayPoke, hst] at hmay
  · cases p with
    | provide v => simp [(provide_next hp).2.2] at hc
    | close => cases hp; exact ⟨hst, hq, rfl⟩
    | ready b => cases hp; exact ⟨hst, hq, hc⟩
    | drain => cases hp; exact ⟨hst, hq, hc⟩

/-- Settles O33: by the status; and a wait at a closed, empty input is one that no move ends. -/
theorem noStepWhereNoneIsEnabled : Obligations.NoStepWhereNoneIsEnabled := by
  refine fun s => ⟨enabled_iff, step_of_not_enabled, fun hst hq hc => ⟨?_, ?_⟩⟩
  · simp [enabled, hst, inValid, inData, hq]
  · exact fun _ _ hm => act_closed_input hst hq hc hm

/-! ### The transitions (R121) -/

/-- The status an instruction leaves when it takes no fault. -/
def statusOf (s : State) : Instr → Status
  | .inp _ => if s.ports.inQueue = [] then .awaitIn else .running
  | .out _ => if s.ports.outReady = false then .awaitOut else if s.cfg.yieldOnOutput then .yielded else .running
  | .halt => .halted
  | _ => .running

theorem Commits.status {s t : State} {i : Instr} (h : Commits s i t) : t.status = statusOf s i := by
  have hst : t.status = nextStatus s i := congrArg State.status h.state
  rw [hst]
  cases i with
  | inp m => simp [nextStatus, statusOf, h.input ⟨m, rfl⟩]
  | out m => simp [nextStatus, statusOf, h.output ⟨m, rfl⟩]
  | add | mul | jt | jf | lt | eq | arb | halt => rfl

theorem exec_status {i : Instr} {s t : State} (h : exec i s = .next t) :
    t.status = .faulted ∨ t.status = statusOf s i := by
  rcases (exec_ends h).status_cases with ⟨c, rfl⟩ | ⟨⟨m, rfl⟩, hq, rfl⟩ | ⟨⟨m, rfl⟩, ho, rfl⟩ | hst
  · exact .inl rfl
  · exact .inr (by simp [statusOf, hq])
  · exact .inr (by simp [statusOf, ho])
  · exact .inr (exec_commits h hst).status

/-- An input whose checks pass, at a port with a value, commits. -/
theorem execIn_of_passes {s : State} {m : Mode} {v : Int} (hm : m.legalDst = true)
    (h : firstFault (checks s (.inp m)) = none) (hv : inData s = some v) :
    execIn m s = .next (commitInput s (dstAddress s 0 m) v (s.ip + 2)) := by
  obtain ⟨hslot, hrange, hcap⟩ : slotFault s 0 m = none ∧ rangeFault s (s.ip + 2) = none ∧
      capacityFault s (dstAddress s 0 m) = none := by
    simpa [firstFault_eq_none, checks] using h
  have hd : dest s 0 m = .ok (dstAddress s 0 m) := by simp [dest_eq s 0 hm, hslot]
  have hn : checkRange s (s.ip + 2) = .ok (s.ip + 2) := by simp [checkRange_eq, hrange]
  have hc : checkCapacity s (dstAddress s 0 m) = .ok () := by simp [checkCapacity_eq, hcap]
  simp [execIn, hd, hn, hc, hv, bind, Except.bind, pure, Except.pure, settle]

/-- An output whose checks pass, at a port that is ready, commits. -/
theorem execOut_of_passes {s : State} {m : Mode} (h : firstFault (checks s (.out m)) = none)
    (ho : s.ports.outReady = true) :
    execOut m s = .next (commitOutput s (srcValue s 0 m) (s.ip + 2)) := by
  obtain ⟨hslot, hrange⟩ : slotFault s 0 m = none ∧ rangeFault s (s.ip + 2) = none := by
    simpa [firstFault_eq_none, checks] using h
  have hv : value s 0 m = .ok (srcValue s 0 m) := by simp [value_eq, hslot]
  have hn : checkRange s (s.ip + 2) = .ok (s.ip + 2) := by simp [checkRange_eq, hrange]
  simp [execOut, hv, hn, ho, bind, Except.bind, pure, Except.pure, settle]

theorem wf_of_decode {w : Int} {i : Instr} (h : decode w = .ok i) : i.wf = true :=
  ((decodesExactlyItsWords w i).mp h).2.2.1

/-- From RUNNING a step faults or leads where its instruction says. -/
theorem step_from_running {s t : State} (hst : s.status = .running) (hs : step s = .next t) :
    t.status = .faulted ∨ ∃ i, decode (s.mem.read s.ip.toNat) = .ok i ∧ t.status = statusOf s i := by
  rcases step_cases hs with ⟨hne, -⟩ | ⟨-, -, rfl⟩ | ⟨-, -, c, -, rfl⟩ | ⟨-, -, i, hd, hx⟩
  · simp [enabled, hst] at hne
  · exact .inl rfl
  · exact .inl rfl
  · exact (exec_status hx).imp_right fun h => ⟨i, hd, h⟩

/-- From AWAIT_IN, once there is a value, the step commits the input waited at (R122). -/
theorem step_from_awaitIn {s t : State} (hinv : StatusInv s) (hst : s.status = .awaitIn)
    (hq : s.ports.inQueue ≠ []) (hs : step s = .next t) :
    (∃ m, decode (s.mem.read s.ip.toNat) = .ok (.inp m)) ∧ t.status = .running := by
  obtain ⟨hip, m, hd, hpass⟩ := hinv.awaitIn hst
  obtain ⟨v, hv⟩ : ∃ v, inData s = some v := Option.isSome_iff_exists.mp (inValid_iff.mpr hq)
  have hx : step s = execIn m s := step_of_decode_ok (enabled_iff.mpr (.inr (.inl ⟨hst, hq⟩))) hip hd
  rw [hx, execIn_of_passes (wf_of_decode hd) hpass hv] at hs
  cases hs
  exact ⟨⟨m, hd⟩, rfl⟩

/-- From AWAIT_OUT, once the port is ready, the step commits the output waited at (R122). -/
theorem step_from_awaitOut {s t : State} (hinv : StatusInv s) (hst : s.status = .awaitOut)
    (ho : s.ports.outReady = true) (hs : step s = .next t) :
    (∃ m, decode (s.mem.read s.ip.toNat) = .ok (.out m)) ∧ t.status = statusAfterOutput s := by
  obtain ⟨hip, m, hd, hpass⟩ := hinv.awaitOut hst
  have hx : step s = execOut m s := step_of_decode_ok (enabled_iff.mpr (.inr (.inr ⟨hst, ho⟩))) hip hd
  rw [hx, execOut_of_passes hpass ho] at hs
  cases hs
  exact ⟨⟨m, hd⟩, rfl⟩

theorem runCommand_status (s : State) : (runCommand s).status =
    if s.status = .ready ∨ s.status = .yielded then .running else s.status := by
  rcases runCommand_cases s with ⟨heq, hst⟩ | ⟨heq, hr, hy⟩
  · simp [heq, hst]
  · simp [heq, hr, hy]

/-- Settles O36: one lemma above for each status in which a step can be enabled. -/
theorem statusTransitions : Obligations.StatusTransitions := by
  refine ⟨fun s t hinv hs => ?_, runCommand_status⟩
  cases he : enabled s with
  | false => exact .inl ⟨rfl, by simp [step_idle he hs]⟩
  | true =>
    rcases enabled_iff.mp he with hst | ⟨hst, hq⟩ | ⟨hst, ho⟩
    · exact .inr (.inl ⟨hst, step_from_running hst hs⟩)
    · exact .inr (.inr (.inl ⟨hst, hq, step_from_awaitIn hinv hst hq hs⟩))
    · exact .inr (.inr (.inr ⟨hst, ho, step_from_awaitOut hinv hst ho hs⟩))

/-! ### Resumption (R122) -/

/-- The engine with another status and other pulses, which is all that a suspension changes. -/
def withStatus (s : State) (st : Status) (take put : Bool) : State :=
  { s with status := st, ports := { s.ports with inTake := take, outPut := put } }

/-- No instruction reads the status or the pulses, and each sets both, however it ends. -/
theorem exec_withStatus (i : Instr) (s : State) (st : Status) (take put : Bool) :
    exec i (withStatus s st take put) = exec i s := by
  cases i <;> rfl

/-- Nor does the rest of the step, but for asking whether one is enabled. -/
theorem step_withStatus {s : State} {st : Status} {take put : Bool} (hs : enabled s = true)
    (ht : enabled (withStatus s st take put) = true) : step (withStatus s st take put) = step s := by
  have hfetch : fetch (withStatus s st take put) = fetch s := rfl
  have hraise (c : FaultCode) : raise (withStatus s st take put) c = raise s c := rfl
  simp only [step, hs, ht, hfetch, hraise, exec_withStatus, if_true]

theorem enabled_of_running {s : State} (h : s.status = .running) : enabled s = true :=
  enabled_iff.mpr (.inl h)

/-- A step from RUNNING to a wait is the suspension, and no other end. -/
theorem step_suspends {s t : State} (hrun : s.status = .running) (hs : step s = .next t)
    (ht : t.status = .awaitIn ∨ t.status = .awaitOut) : t = suspend s t.status := by
  rcases step_ends hs with ⟨hne, -⟩ | ⟨-, i, he⟩
  · simp [enabled_of_running hrun] at hne
  · rcases he.status_cases with ⟨c, rfl⟩ | ⟨-, -, rfl⟩ | ⟨-, -, rfl⟩ | hst
    · simp at ht
    · rfl
    · rfl
    · rcases ht with ht | ht <;> simp [ht] at hst

/-- Settles O37: with the value presented, the suspended engine is the running one with another
status and no pulse. -/
theorem suspendedInputResumes : Obligations.SuspendedInputResumes := by
  intro s t t' s' v hrun hs ht hpt hps
  have hsus : t = suspend s .awaitIn := ht ▸ step_suspends hrun hs (.inl ht)
  obtain ⟨hs', -⟩ := provide_next hps
  obtain ⟨ht', -⟩ := provide_next hpt
  have heq : t' = withStatus s' .awaitIn false false := by rw [ht', hs', hsus]; rfl
  have hen : enabled t' = true := enabled_iff.mpr (.inr (.inl (by simp [ht', ht])))
  have hen' : enabled s' = true := enabled_of_running (by simp [hs', hrun])
  exact ⟨heq ▸ step_withStatus hen' (heq ▸ hen), by simp [ht', hsus], hen⟩

/-- Settles O38: as for an input, with the port made ready. -/
theorem suspendedOutputResumes : Obligations.SuspendedOutputResumes := by
  intro s t hrun hs ht
  have hsus : t = suspend s .awaitOut := ht ▸ step_suspends hrun hs (.inr ht)
  have heq : driveOutReady t true = withStatus (driveOutReady s true) .awaitOut false false := by
    rw [hsus]; rfl
  have hen : enabled (driveOutReady t true) = true := enabled_iff.mpr (.inr (.inr ⟨ht, rfl⟩))
  have hen' : enabled (driveOutReady s true) = true := enabled_of_running hrun
  exact ⟨heq ▸ step_withStatus hen' (heq ▸ hen), by rw [hsus]; rfl, hen⟩

end Sys2Proof.Machine
end

