-- ==== Sys2Proof/Proofs/RunControl.lean ====
section
/-! SUPPORT. The host's run command, the outputs of one call of run_until_output_or_halt, and the
terminal statuses (40_sequencer.md R123, R125 to R127). -/

namespace Sys2Proof.Machine

/-! ### The run command (R125) -/

/-- Settles O55: the run command by the status it meets; and a poke changes memory, which no step
being enabled depends on. -/
theorem runCommandOnlyStarts : Obligations.RunCommandOnlyStarts := by
  refine fun s => ⟨fun hst => ?_, fun hr hy => ?_, fun a v t hp => ?_⟩
  · rcases hst with hst | hst <;> simp [runCommand, hst]
  · rcases runCommand_cases s with ⟨-, hst⟩ | ⟨heq, -⟩
    · exact absurd hst (by simp [hr, hy])
    · exact heq
  · obtain ⟨rfl, -⟩ := poke_next hp
    rfl

/-! ### The terminal statuses (R123) -/

theorem terminated_iff {s : State} : terminated s = true ↔ s.status = .halted ∨ s.status = .faulted := by
  cases hst : s.status <;> simp [terminated, hst]

theorem not_enabled_of_terminated {s : State} (h : terminated s = true) : enabled s = false := by
  rcases terminated_iff.mp h with hst | hst <;> simp [enabled, hst]

theorem runCommand_of_terminated {s : State} (h : terminated s = true) : runCommand s = s := by
  rcases terminated_iff.mp h with hst | hst <;> simp [runCommand, hst]

theorem terminated_congr {s t : State} (h : t.status = s.status) : terminated t = terminated s := by
  simp only [terminated, h]

theorem act_keeps_terminal_status {s t : State} (h : terminated s = true) {m : Move}
    (hm : act s m = .next t) : t.status = s.status := by
  rcases act_next hm with ⟨-, rfl⟩ | ⟨a, v, -, rfl, -⟩ | ⟨p, -, hp⟩
  · rw [runCommand_of_terminated h]
  · rfl
  · rw [(portAct_next hp).1]

/-- Settles O58: no step is enabled in a terminal status, and every move keeps that status. -/
theorem terminatedForEver : Obligations.TerminatedForEver := by
  intro s h
  have hne : enabled s = false := not_enabled_of_terminated h
  refine ⟨hne, runCommand_of_terminated h, fun t hs => ?_, fun a v t hp => ?_, fun m t hm => ?_⟩
  · simp [step_idle hne hs]
  · rw [(poke_next hp).1]
  · have hst : t.status = s.status := act_keeps_terminal_status h hm
    exact ⟨hst, not_enabled_of_terminated ((terminated_congr hst).trans h)⟩

/-! ### The outputs of one call (R126, R127) -/

theorem environment_status (ms : List PortMove) (s : State) : (environment ms s).status = s.status := by
  rw [environment_eq]

theorem environment_cfg (ms : List PortMove) (s : State) : (environment ms s).cfg = s.cfg := by
  rw [environment_eq]

theorem environment_outData (ms : List PortMove) (s : State) : (environment ms s).outData = s.outData := by
  rw [environment_eq]

theorem report_outputProduced {s : State} {v : Int} :
    report s = some (.outputProduced v) ↔ s.status = .yielded ∧ s.outData = some v := by
  cases hst : s.status <;> simp [report, hst]

/-- With yield_on_output 1 an instruction either puts a value and stops in YIELDED, or does neither. -/
theorem Ends.put_cases {s t : State} {i : Instr} (h : Ends s i t) (hy : s.cfg.yieldOnOutput = true) :
    (∃ v, putBy t = [v] ∧ t.status = .yielded ∧ t.outData = some v) ∨
    (putBy t = [] ∧ t.status ≠ .yielded) := by
  cases h with
  | output m v => exact .inl ⟨v, by simp [putBy], by simp [statusAfterOutput, hy], rfl⟩
  | fault | awaitIn | awaitOut | store | input | jump | base | halt => exact .inr (by simp [putBy])

theorem runLoop_succ {env : Nat → List PortMove} {k : Nat} {s u : State} (he : enabled s = true)
    (hu : step s = .next u) : runLoop env (k + 1) s =
      (runLoop env k (environment (env k) u)).map fun r => (r.1, putBy u ++ r.2) := by
  simp only [runLoop, he, hu, if_true]

/-- The loop that starts outside YIELDED ends in YIELDED exactly when it put one value, and puts no
more: the step that puts one leads to YIELDED, where no step is enabled. -/
theorem runLoop_puts_once {env : Nat → List PortMove} {k : Nat} {s t : State} {put : List Int}
    (hy : s.cfg.yieldOnOutput = true) (hst : s.status ≠ .yielded) (h : runLoop env k s = some (t, put)) :
    (put = [] ∧ t.status ≠ .yielded) ∨ ∃ v, put = [v] ∧ t.status = .yielded ∧ t.outData = some v := by
  induction k generalizing s put with
  | zero =>
    cases he : enabled s with
    | false =>
      cases (runLoop_stopped env 0 he).symm.trans h
      exact .inl ⟨rfl, hst⟩
    | true => simp [runLoop, he] at h
  | succ k ih =>
    cases he : enabled s with
    | false =>
      cases (runLoop_stopped env (k + 1) he).symm.trans h
      exact .inl ⟨rfl, hst⟩
    | true =>
      obtain ⟨u, hu⟩ := everyStepAnswers s
      obtain ⟨⟨t', rest⟩, hrest, heq⟩ := Option.map_eq_some_iff.mp ((runLoop_succ he hu).symm.trans h)
      obtain ⟨rfl, rfl⟩ := Prod.mk.inj heq
      obtain ⟨-, i, hends⟩ : enabled s = true ∧ ∃ i, Ends s i u := (step_ends hu).resolve_left (by simp [he])
      have hcfg : (environment (env k) u).cfg.yieldOnOutput = true := by
        rw [environment_cfg, hends.configuration.1, hy]
      rcases hends.put_cases hy with ⟨v, hput, hyield, hout⟩ | ⟨hput, hst'⟩
      · have hstop : enabled (environment (env k) u) = false := by simp [enabled, environment_status, hyield]
        cases (runLoop_stopped env k hstop).symm.trans hrest
        refine .inr ⟨v, by simp [hput], ?_, ?_⟩
        · rw [environment_status, hyield]
        · rw [environment_outData, hout]
      · simpa [hput] using ih hcfg (by rwa [environment_status]) hrest

theorem runCommand_cfg (s : State) : (runCommand s).cfg = s.cfg := by
  rcases runCommand_cases s with ⟨heq, -⟩ | ⟨heq, -⟩ <;> rw [heq]

/-- The run command leaves no engine in YIELDED. -/
theorem runCommand_not_yielded (s : State) : (runCommand s).status ≠ .yielded := by
  rw [runCommand_status]
  split_ifs with hst
  · simp
  · exact fun hy => hst (.inr hy)

/-- Settles O57: the call is the loop started outside YIELDED, and YIELDED is the status that reports
an output. -/
theorem oneOutputPerCall : Obligations.OneOutputPerCall := by
  intro env k s t put hy h
  have hcfg : (runCommand s).cfg.yieldOnOutput = true := by rw [runCommand_cfg, hy]
  rcases runLoop_puts_once hcfg (runCommand_not_yielded s) h with ⟨hput, hst⟩ | ⟨v, hput, hst⟩
  · exact .inl ⟨hput, fun v hr => hst (report_outputProduced.mp hr).1⟩
  · exact .inr ⟨v, hput, report_outputProduced.mpr hst⟩

end Sys2Proof.Machine
end

