-- ==== Sys2Proof/Proofs/Arithmetic.lean ====
section
/-! SUPPORT. ADD and MUL where every condition for a commit holds, and what ADD, MUL, LT and EQ leave
unchanged: each of them ends in one store to its third slot or in a fault. -/

namespace Sys2Proof.Machine

/-! ### Completion (41_arithmetic.md R140, R141) -/

/-- Readable sources, a writable destination with room, and words for the result and the next `ip`
are all an arithmetic instruction needs to commit (40_sequencer.md R117). -/
theorem arithmetic_completes {f : Int → Int → Int} {a b c : Mode} {s : State}
    (ha : SrcOk s 0 a) (hb : SrcOk s 1 b) (hc : DstOk s 2 c)
    (hr : representable s.params (f (srcValue s 0 a) (srcValue s 1 b)) = true)
    (hn : representable s.params (s.ip + 4) = true) (hroom : HasRoom s (dstAddress s 2 c)) :
    settle s (arithmetic f a b c s) =
      .next (commitWrite s (dstAddress s 2 c) (f (srcValue s 0 a) (srcValue s 1 b)) (s.ip + 4)) :=
  congrArg (settle s) (arithmetic_ok.mpr ⟨_, _, _, value_ok.mpr ⟨ha, rfl⟩, value_ok.mpr ⟨hb, rfl⟩,
    dest_ok.mpr ⟨hc, rfl⟩, hr, hn, hroom, rfl⟩)

/-- Settles O12: ADD is the arithmetic instruction of the exact sum. -/
theorem addWritesTheSum : Obligations.AddWritesTheSum :=
  fun _ _ _ _ ha hb hc hr hn hroom => arithmetic_completes (f := (· + ·)) ha hb hc hr hn hroom

/-- Settles O13: MUL is the arithmetic instruction of the exact product. -/
theorem mulWritesTheProduct : Obligations.MulWritesTheProduct :=
  fun _ _ _ _ ha hb hc hr hn hroom => arithmetic_completes (f := (· * ·)) ha hb hc hr hn hroom

/-! ### The frame of a store to the third slot (20_memory.md R62) -/

theorem modes_of_threeSlot {i : Instr} {a b c : Mode}
    (hi : i = .add a b c ∨ i = .mul a b c ∨ i = .lt a b c ∨ i = .eq a b c) : i.modes = [a, b, c] := by
  rcases hi with rfl | rfl | rfl | rfl <;> rfl

/-- The store an instruction ends in is at the destination its own third slot names. -/
theorem Ends.faults_or_stores {i : Instr} {a b c : Mode} {s t : State} (h : Ends s i t)
    (hi : i = .add a b c ∨ i = .mul a b c ∨ i = .lt a b c ∨ i = .eq a b c) :
    (∃ code, t = raise s code) ∨ ∃ ea v, dest s 2 c = .ok ea ∧ t = commitWrite s ea v (s.ip + 4) := by
  cases h with
  | fault _ code => exact .inl ⟨code, rfl⟩
  | store _ ea v hstore =>
    obtain ⟨a', b', c', hi', hd⟩ := hstore
    have hmodes : [a, b, c] = [a', b', c'] := (modes_of_threeSlot hi).symm.trans (modes_of_threeSlot hi')
    obtain ⟨-, -, rfl⟩ : a = a' ∧ b = b' ∧ c = c' := by simpa using hmodes
    exact .inr ⟨ea, v, hd, rfl⟩
  | jump _ _ _ _ hj => rcases hj with rfl | rfl <;> simp at hi
  | awaitIn | awaitOut | input | output | base | halt => simp at hi

theorem read_commitWrite_ne {a x : Nat} (h : x ≠ a) (s : State) (v ip : Int) :
    (commitWrite s a v ip).mem.read x = s.mem.read x :=
  read_write_ne h s.mem s.n v

/-- Settles O42: a fault writes no memory, and a store writes its destination only. -/
theorem frameOfThreeSlotStores : Obligations.FrameOfThreeSlotStores := by
  intro i a b c s t hi hx
  rcases (exec_ends hx).faults_or_stores hi with ⟨code, rfl⟩ | ⟨ea, v, hd, rfl⟩
  · exact ⟨rfl, rfl, rfl, rfl, rfl, rfl, .inl rfl, fun _ _ => rfl⟩
  · refine ⟨rfl, rfl, rfl, rfl, rfl, rfl, .inr ⟨rfl, rfl⟩, fun x hother => ?_⟩
    have hne : x ≠ ea := hother.resolve_left (by simp) ea hd
    exact read_commitWrite_ne hne s v _

end Sys2Proof.Machine
end

