-- ==== Sys2Proof/Proofs/Io.lean ====
section
/-! SUPPORT. IN and OUT where every check passes, what each field of the state owes to the one
instruction that writes it, and the values that cross the ports (42_io.md R150 to R158). -/

namespace Sys2Proof.Machine

/-! ### Completion and suspension (42_io.md R151, R152, R154, R156) -/

theorem inData_of_inQueue {s : State} {v : Int} {rest : List Int} (hq : s.ports.inQueue = v :: rest) :
    inData s = some v := by
  simp [inData, hq]

theorem inQueue_of_inData {s : State} {v : Int} (h : inData s = some v) :
    s.ports.inQueue = v :: s.ports.inQueue.tail :=
  (List.cons_head?_tail h).symm

/-- A writable destination with room and a word for the next `ip` are all an input checks. -/
theorem inputChecks_pass {s : State} {m : Mode} (hd : DstOk s 0 m)
    (hn : representable s.params (s.ip + 2) = true) (hroom : HasRoom s (dstAddress s 0 m)) :
    firstFault (checks s (.inp m)) = none := by
  have hslot : slotFault s 0 m = none := slotFault_eq_none_of_dest (dest_ok.mpr ⟨hd, rfl⟩)
  simp [firstFault_eq_none, checks, hslot, rangeFault_eq_none, hn, capacityFault_eq_none, hroom]

/-- A readable source and a word for the next `ip` are all an output checks. -/
theorem outputChecks_pass {s : State} {m : Mode} (hv : SrcOk s 0 m)
    (hn : representable s.params (s.ip + 2) = true) : firstFault (checks s (.out m)) = none := by
  have hslot : slotFault s 0 m = none := slotFault_eq_none_of_value (value_ok.mpr ⟨hv, rfl⟩)
  simp [firstFault_eq_none, checks, hslot, rangeFault_eq_none, hn]

/-- Settles O16: an input whose checks pass commits the oldest waiting value. -/
theorem inWritesTheValueTaken : Obligations.InWritesTheValueTaken := by
  intro s m v rest hd hn hroom hq
  have hm : m.legalDst = true := legalDst_of_dest (dest_ok.mpr ⟨hd, rfl⟩)
  refine (execIn_of_passes hm (inputChecks_pass hd hn hroom) (inData_of_inQueue hq)).trans ?_
  simp [commitInput, Ports.take, hq]

/-- Settles O17: past its three checks an input meets the empty port. -/
theorem inSuspendsWithoutAValue : Obligations.InSuspendsWithoutAValue := by
  intro s m hd hn hroom hq
  have hdest : dest s 0 m = .ok (dstAddress s 0 m) := dest_ok.mpr ⟨hd, rfl⟩
  have hnext : checkRange s (s.ip + 2) = .ok (s.ip + 2) := checkRange_ok.mpr ⟨hn, rfl⟩
  have hcap : checkCapacity s (dstAddress s 0 m) = .ok () := checkCapacity_ok.mpr hroom
  have hport : inData s = none := List.head?_eq_none_iff.mpr hq
  exact congrArg (settle s) (bind_ok.mpr ⟨_, hdest, bind_ok.mpr ⟨_, hnext, bind_ok.mpr ⟨_, hcap, by rw [hport]; rfl⟩⟩⟩)

/-- Settles O18: an output whose checks pass commits its value to the ready port. -/
theorem outPutsTheValue : Obligations.OutPutsTheValue :=
  fun _ _ hv hn ho => execOut_of_passes (outputChecks_pass hv hn) ho

/-- Settles O19: past its two checks an output meets the port that is not ready. -/
theorem outSuspendsWhenBlocked : Obligations.OutSuspendsWhenBlocked := by
  intro s m hv hn ho
  have hvalue : value s 0 m = .ok (srcValue s 0 m) := value_ok.mpr ⟨hv, rfl⟩
  have hnext : checkRange s (s.ip + 2) = .ok (s.ip + 2) := checkRange_ok.mpr ⟨hn, rfl⟩
  exact congrArg (settle s) (bind_ok.mpr ⟨_, hvalue, bind_ok.mpr ⟨_, hnext, by rw [ho]; rfl⟩⟩)

/-! ### What only one instruction writes (10_state.md R35; 20_memory.md R62) -/

namespace Ends

variable {s t : State} {i : Instr}

theorem rb_eq (h : Ends s i t) (hi : ∀ m, i ≠ .arb m) : t.rb = s.rb := by
  cases h with
  | base m => exact absurd rfl (hi m)
  | fault | awaitIn | awaitOut | store | input | output | jump | halt => rfl

theorem outputSide_eq (h : Ends s i t) (hi : ∀ m, i ≠ .out m) :
    t.outData = s.outData ∧ t.ports.outQueue = s.ports.outQueue ∧ t.ports.outPut = false := by
  cases h with
  | output m => exact absurd rfl (hi m)
  | fault | awaitIn | awaitOut | store | input | jump | base | halt => exact ⟨rfl, rfl, rfl⟩

theorem inputSide_eq (h : Ends s i t) (hi : ∀ m, i ≠ .inp m) :
    t.ports.inQueue = s.ports.inQueue ∧ t.ports.inTake = false := by
  cases h with
  | input m => exact absurd rfl (hi m)
  | fault | awaitIn | awaitOut | store | output | jump | base | halt => exact ⟨rfl, rfl⟩

/-- An instruction without a store leaves the whole memory, however it ends. -/
theorem mem_eq (h : Ends s i t) (hi : storeOf s i = none) : t.mem = s.mem := by
  cases h with
  | store _ _ _ hstore =>
    obtain ⟨a, b, c, rfl | rfl | rfl | rfl, -⟩ := hstore <;> simp [storeOf] at hi
  | input m ea v _ hv => simp [storeOf, hv] at hi
  | fault | awaitIn | awaitOut | output | jump | base | halt => rfl

/-- The signals the environment holds at the ports (42_io.md R150). -/
theorem heldSignals_eq (h : Ends s i t) :
    t.ports.inClosed = s.ports.inClosed ∧ t.ports.outReady = s.ports.outReady := by
  cases h with
  | fault | awaitIn | awaitOut | store | input | output | jump | base | halt => exact ⟨rfl, rfl⟩

theorem faulted_or_fault_eq (h : Ends s i t) : t.status = .faulted ∨ t.fault = s.fault := by
  cases h with
  | fault => exact .inl rfl
  | awaitIn | awaitOut | store | input | output | jump | base | halt => exact .inr rfl

/-- How an input ends. -/
theorem input_cases {m : Mode} (h : Ends s (.inp m) t) :
    (∃ code, t = raise s code) ∨ t = suspend s .awaitIn ∨
      ∃ ea v, dest s 0 m = .ok ea ∧ inData s = some v ∧ t = commitInput s ea v (s.ip + 2) := by
  cases h with
  | fault _ code => exact .inl ⟨code, rfl⟩
  | awaitIn => exact .inr (.inl rfl)
  | input _ ea v hd hv => exact .inr (.inr ⟨ea, v, hd, hv, rfl⟩)
  | store _ _ _ hstore => obtain ⟨_, _, _, hi, -⟩ := hstore; simp at hi
  | jump _ _ _ _ hi => simp at hi

/-- An instruction gives no pulse, or takes a value as an input, or puts one as an output
(42_io.md R158). -/
theorem pulse_cases (h : Ends s i t) :
    (t.ports = s.ports.quiet ∧ t.outData = s.outData) ∨
    (∃ m ea v, i = .inp m ∧ dest s 0 m = .ok ea ∧ inData s = some v ∧ t = commitInput s ea v (s.ip + 2)) ∨
    ∃ v, t = commitOutput s v (s.ip + 2) := by
  cases h with
  | input m ea v hd hv => exact .inr (.inl ⟨m, ea, v, rfl, hd, hv, rfl⟩)
  | output _ v => exact .inr (.inr ⟨v, rfl⟩)
  | fault | awaitIn | awaitOut | store | jump | base | halt => exact .inl ⟨rfl, rfl⟩

end Ends

/-! ### The values that cross (42_io.md R153, R155, R158) -/

theorem read_commitInput_same (s : State) (a : Nat) (v ip : Int) : (commitInput s a v ip).mem.read a = v :=
  read_write_same s.mem s.n a v

theorem read_commitInput_ne {a x : Nat} (h : x ≠ a) (s : State) (v ip : Int) :
    (commitInput s a v ip).mem.read x = s.mem.read x :=
  read_write_ne h s.mem s.n v

/-- A step gives no pulse unless it runs an input that takes a value or an output that puts one. -/
theorem step_pulse_cases {s t : State} (hs : step s = .next t) :
    (t.ports = s.ports.quiet ∧ t.outData = s.outData) ∨
    (∃ m ea v, decode (s.mem.read s.ip.toNat) = .ok (.inp m) ∧ dest s 0 m = .ok ea ∧ inData s = some v ∧
      t = commitInput s ea v (s.ip + 2)) ∨
    ∃ v, t = commitOutput s v (s.ip + 2) := by
  rcases step_cases hs with ⟨-, rfl⟩ | ⟨-, -, rfl⟩ | ⟨-, -, c, -, rfl⟩ | ⟨-, -, i, hdec, hx⟩
  · exact .inl ⟨rfl, rfl⟩
  · exact .inl ⟨rfl, rfl⟩
  · exact .inl ⟨rfl, rfl⟩
  · rcases (exec_ends hx).pulse_cases with hquiet | ⟨m, ea, v, rfl, hd, hv, rfl⟩ | hput
    · exact .inl hquiet
    · exact .inr (.inl ⟨m, ea, v, hdec, hd, hv, rfl⟩)
    · exact .inr (.inr hput)

/-- Settles O41: a step without a pulse moves no value, one with `in_take` is the commit of an input
and one with `out_put` the commit of an output. -/
theorem eachValueCrossesOnce : Obligations.EachValueCrossesOnce := by
  intro s t hs
  rcases step_pulse_cases hs with ⟨hports, hout⟩ | ⟨m, ea, v, hdec, hd, hv, rfl⟩ | ⟨v, rfl⟩
  · simp [hports, hout]
  · have hread (ea' : Nat) (hd' : dest s 0 m = .ok ea') : (commitInput s ea v (s.ip + 2)).mem.read ea' = v := by
      obtain rfl : ea = ea' := Except.ok.inj (hd.symm.trans hd')
      exact read_commitInput_same ..
    exact ⟨fun _ => ⟨⟨v, inQueue_of_inData hv, m, hdec, hread⟩, rfl⟩, by simp, by simp, fun _ => ⟨rfl, rfl⟩⟩
  · exact ⟨by simp, fun _ => rfl, fun _ => ⟨v, rfl, rfl, rfl⟩, by simp⟩

/-! ### Frames -/

/-- Settles O43: an input writes memory and takes a value only where it commits; the rest is what any
instruction but ARB and OUT leaves. -/
theorem frameOfInput : Obligations.FrameOfInput := by
  intro m s t hx
  have he : Ends s (.inp m) t := exec_ends hx
  obtain ⟨hcfg, hn, hparams⟩ := he.configuration
  obtain ⟨hclosed, hready⟩ := he.heldSignals_eq
  obtain ⟨hout, hputs, hput⟩ := he.outputSide_eq (by simp)
  refine ⟨he.rb_eq (by simp), hn, hout, hcfg, hparams, hclosed, hready, hputs, hput, ?_, he.faulted_or_fault_eq, ?_⟩
  · rcases he.input_cases with ⟨code, rfl⟩ | rfl | ⟨ea, v, -, hv, rfl⟩
    · exact .inr ⟨.inl rfl, rfl, rfl⟩
    · exact .inr ⟨.inr rfl, rfl, rfl⟩
    · exact .inl ⟨rfl, rfl, v, inQueue_of_inData hv⟩
  · intro x hother
    rcases he.input_cases with ⟨code, rfl⟩ | rfl | ⟨ea, v, hd, -, rfl⟩
    · rfl
    · rfl
    · have hne : x ≠ ea := by simpa [hd] using hother
      exact read_commitInput_ne hne s v _

/-- Settles O44: these five instructions have no store and take no input. -/
theorem frameOfNonStoring : Obligations.FrameOfNonStoring := by
  intro i s t hi hx
  have he : Ends s i t := exec_ends hx
  have hstore : storeOf s i = none := by
    rcases hi with ⟨a, rfl⟩ | ⟨a, b, rfl⟩ | ⟨a, b, rfl⟩ | ⟨a, rfl⟩ | rfl <;> rfl
  have hinp (m : Mode) : i ≠ .inp m := by
    rintro rfl
    simp at hi
  have hmem : t.mem = s.mem := he.mem_eq hstore
  obtain ⟨hcfg, hn, hparams⟩ := he.configuration
  obtain ⟨hclosed, hready⟩ := he.heldSignals_eq
  obtain ⟨hqueue, htake⟩ := he.inputSide_eq hinp
  exact ⟨fun x => by rw [hmem], by rw [hmem], hn, hcfg, hparams, hqueue, hclosed, hready, htake, he.rb_eq,
    he.outputSide_eq, he.faulted_or_fault_eq⟩

end Sys2Proof.Machine
end

