-- ==== Sys2Proof/Proofs/Jumps.lean ====
section
/-! SUPPORT. JT and JF where both sources can be read: the one commit of a jump taken and of one not
taken, and the fault that waits at a negative target (43_jumps.md R180 to R182). -/

namespace Sys2Proof.Machine

section
variable {taken : Int → Bool} {s : State} {a b : Mode} (ha : SrcOk s 0 a) (hb : SrcOk s 1 b)
include ha hb

/-- A jump that is taken checks nothing but its two slots, its target least of all. -/
theorem jump_taken (hc : taken (srcValue s 0 a) = true) :
    settle s (jump taken a b s) = .next (commit s (srcValue s 1 b)) :=
  congrArg (settle s) (jump_ok.mpr ⟨_, _, value_ok.mpr ⟨ha, rfl⟩, value_ok.mpr ⟨hb, rfl⟩, .inl ⟨hc, rfl⟩⟩)

theorem jump_not_taken (hc : taken (srcValue s 0 a) = false) (hn : representable s.params (s.ip + 3) = true) :
    settle s (jump taken a b s) = .next (commit s (s.ip + 3)) :=
  congrArg (settle s) (jump_ok.mpr ⟨_, _, value_ok.mpr ⟨ha, rfl⟩, value_ok.mpr ⟨hb, rfl⟩, .inr ⟨hc, hn, rfl⟩⟩)

end

/-- Settles O20: JT is the jump taken on every condition but 0. -/
theorem jtJumpsUnlessZero : Obligations.JtJumpsUnlessZero := by
  refine fun s a b ha hb => ⟨fun hc => ?_, fun hc hn => ?_⟩
  · exact jump_taken ha hb (by simp [isZero, hc])
  · exact jump_not_taken ha hb (by simp [isZero, hc]) hn

/-- Settles O21: JF is the jump taken on the condition 0 only. -/
theorem jfJumpsOnlyOnZero : Obligations.JfJumpsOnlyOnZero := by
  refine fun s a b ha hb => ⟨fun hc => ?_, fun hc hn => ?_⟩
  · exact jump_taken ha hb (by simp [isZero, hc])
  · exact jump_not_taken ha hb (by simp [isZero, hc]) hn

/-- An engine that committed to a negative `ip` goes on to fault there, with no word (R112). -/
theorem step_commit_of_neg {s : State} {v : Int} (hv : v < 0) :
    step (commit s v) = .next { commit s v with
      status := .faulted, fault := some ⟨.negativeAddress, v, none⟩ } := by
  rw [step_of_neg_ip (enabled_of_running (commit_status s v)) hv]
  simp [Faulted, hv, commit, Ports.quiet]

/-- Settles O39: either jump, taken, commits to its target, and the fetch there faults. -/
theorem negativeJumpTargetFaultsAtTheNextFetch : Obligations.NegativeJumpTargetFaultsAtTheNextFetch := by
  intro i s t a b ha hb hi hneg hx
  have htaken : exec i s = .next (commit s (srcValue s 1 b)) := by
    rcases hi with ⟨rfl, hc⟩ | ⟨rfl, hc⟩
    · exact (jtJumpsUnlessZero s a b ha hb).1 hc
    · exact (jfJumpsOnlyOnZero s a b ha hb).1 hc
  obtain rfl : commit s (srcValue s 1 b) = t := Host.Outcome.next.inj (htaken.symm.trans hx)
  exact ⟨rfl, rfl, rfl, step_commit_of_neg hneg⟩

end Sys2Proof.Machine
end

