-- ==== Sys2Proof/Proofs/Compare.lean ====
section
/-! SUPPORT. LT and EQ where every condition for a commit holds (44_compare.md R190, R191). -/

namespace Sys2Proof.Machine

/-- Readable sources, a writable destination with room, and a word for the next `ip` are all a
comparison needs to commit: its result is 0 or 1, and no range check stands before it. -/
theorem comparison_completes {f : Int → Int → Bool} {a b c : Mode} {s : State}
    (ha : SrcOk s 0 a) (hb : SrcOk s 1 b) (hc : DstOk s 2 c)
    (hn : representable s.params (s.ip + 4) = true) (hroom : HasRoom s (dstAddress s 2 c)) :
    settle s (comparison f a b c s) =
      .next (commitWrite s (dstAddress s 2 c) (truthWord (f (srcValue s 0 a) (srcValue s 1 b))) (s.ip + 4)) :=
  congrArg (settle s) (comparison_ok.mpr ⟨_, _, _, value_ok.mpr ⟨ha, rfl⟩, value_ok.mpr ⟨hb, rfl⟩,
    dest_ok.mpr ⟨hc, rfl⟩, hn, hroom, rfl⟩)

/-- Settles O14: LT is the comparison of the signed order. -/
theorem ltWritesOneOrZero : Obligations.LtWritesOneOrZero := by
  intro s a b c ha hb hc hn hroom
  rw [← truthWord_lessThan]
  exact comparison_completes ha hb hc hn hroom

/-- Settles O15: EQ is the comparison of the integers themselves. -/
theorem eqWritesOneOrZero : Obligations.EqWritesOneOrZero := by
  intro s a b c ha hb hc hn hroom
  rw [← truthWord_equalTo]
  exact comparison_completes ha hb hc hn hroom

end Sys2Proof.Machine
end

