-- ==== Sys2Proof/Proofs/RelativeBase.lean ====
section
/-! SUPPORT. The relative base: what a relative slot reads and writes with it, the one instruction
that changes it, and that nothing else does (45_relative_base.md R200, R201). -/

namespace Sys2Proof.Machine

/-! ### A relative slot (R201) -/

theorem addressFault_eq_none {a : Int} : addressFault a = none ↔ 0 ≤ a := by
  simp [addressFault]

/-- Where the sum is a word, a relative slot is left with the address check of a position slot. -/
theorem effectiveFault_relative {s : State} {i : Nat} (hr : representable s.params (slotAddress s i .relative) = true) :
    effectiveFault s i .relative = addressFault (slotAddress s i .relative) := by
  rw [effectiveFault, rangeFault_eq_none.mpr hr]
  cases addressFault (slotAddress s i .relative) <;> rfl

theorem slotAddress_nonneg_of_position {s : State} {i : Nat} (h : slotFault s i .position = none) :
    0 ≤ slotAddress s i .position := by
  rw [slotFault, firstFault_eq_none] at h
  exact addressFault_eq_none.mp (h (effectiveFault s i .position) (by simp))

section
variable {s t : State} {i : Nat} (hip : t.ip = s.ip) (hp : t.params = s.params)
  (haddr : slotAddress t i .position = slotAddress s i .relative)
  (hr : representable s.params (slotAddress s i .relative) = true)
include hip hp haddr hr

/-- The two slots make the same checks. -/
theorem slotFault_relative_eq_position : slotFault s i .relative = slotFault t i .position := by
  rw [slotFault, slotFault, effectiveFault_relative hr, effectiveFault, haddr, hip]
  simp only [rangeFault, hp]

theorem value_relative_eq_position (hread : 0 ≤ slotAddress s i .relative →
      t.mem.read (slotAddress s i .relative).toNat = s.mem.read (slotAddress s i .relative).toNat) :
    value s i .relative = value t i .position := by
  rw [value_eq, value_eq, slotFault_relative_eq_position hip hp haddr hr]
  cases hf : slotFault t i .position with
  | some c => rfl
  | none =>
    have hnonneg : 0 ≤ slotAddress s i .relative := haddr ▸ slotAddress_nonneg_of_position hf
    simp only [srcValue, haddr, hread hnonneg]

theorem dest_relative_eq_position : dest s i .relative = dest t i .position := by
  rw [dest_eq s i rfl, dest_eq t i rfl, slotFault_relative_eq_position hip hp haddr hr, dstAddress, dstAddress, haddr]

end

/-- Settles O11: the two slots have one address and make the same checks of it. -/
theorem relativeSlotIsPositionAtTheSum : Obligations.RelativeSlotIsPositionAtTheSum :=
  fun _ _ _ hip hp haddr hr hread =>
    ⟨value_relative_eq_position hip hp haddr hr hread, dest_relative_eq_position hip hp haddr hr⟩

/-! ### ARB (R200) -/

/-- A readable source and words for the sum and for the next `ip` are all ARB needs to commit. -/
theorem execArb_completes {s : State} {a : Mode} (ha : SrcOk s 0 a)
    (hbase : representable s.params (s.rb + srcValue s 0 a) = true)
    (hn : representable s.params (s.ip + 2) = true) :
    execArb a s = .next (commitBase s (s.rb + srcValue s 0 a) (s.ip + 2)) := by
  have hvalue : value s 0 a = .ok (srcValue s 0 a) := value_ok.mpr ⟨ha, rfl⟩
  have hsum : checkRange s (s.rb + srcValue s 0 a) = .ok (s.rb + srcValue s 0 a) := checkRange_ok.mpr ⟨hbase, rfl⟩
  have hnext : checkRange s (s.ip + 2) = .ok (s.ip + 2) := checkRange_ok.mpr ⟨hn, rfl⟩
  exact congrArg (settle s) (bind_ok.mpr ⟨_, hvalue, bind_ok.mpr ⟨_, hsum, bind_ok.mpr ⟨_, hnext, by rfl⟩⟩⟩)

/-- Settles O22: the state ARB commits to, written out. -/
theorem arbAddsToTheBase : Obligations.ArbAddsToTheBase :=
  fun _ _ ha hbase hn => execArb_completes ha hbase hn

/-! ### Nothing else changes the base (R201; 10_state.md R24) -/

/-- A step that changes the base reaches the dispatch, and the decoded instruction is ARB. -/
theorem decode_arb_of_step_rb_ne {s t : State} (hs : step s = .next t) (hne : t.rb ≠ s.rb) :
    ∃ m, decode (s.mem.read s.ip.toNat) = .ok (.arb m) := by
  rcases step_cases hs with ⟨-, rfl⟩ | ⟨-, -, rfl⟩ | ⟨-, -, c, -, rfl⟩ | ⟨-, -, i, hd, hx⟩
  · exact absurd rfl hne
  · exact absurd rfl hne
  · exact absurd rfl hne
  · by_contra hno
    exact hne ((exec_ends hx).rb_eq fun m hi => hno ⟨m, hi ▸ hd⟩)

theorem runCommand_rb (s : State) : (runCommand s).rb = s.rb := by
  rcases runCommand_cases s with ⟨heq, -⟩ | ⟨heq, -⟩ <;> rw [heq]

theorem act_rb {s t : State} {m : Move} (hm : act s m = .next t) : t.rb = s.rb := by
  rcases act_next hm with ⟨-, rfl⟩ | ⟨a, v, -, rfl, -⟩ | ⟨p, -, hp⟩
  · exact runCommand_rb s
  · rfl
  · rw [(portAct_next hp).1]

/-- Settles O45: by what a step and a move can do. -/
theorem onlyArbChangesTheBase : Obligations.OnlyArbChangesTheBase :=
  ⟨fun _ _ => decode_arb_of_step_rb_ne, fun _ _ _ => act_rb⟩

end Sys2Proof.Machine
end

