-- ==== Sys2Proof/Proofs/Halt.lean ====
section
/-! SUPPORT. HALT: what it answers, the words that encode it, and what a call finds afterwards
(46_halt.md R210; 30_encoding.md R91; 40_sequencer.md R126). -/

namespace Sys2Proof.Machine

/-- HALT has no used slot, so its mode digits are free (R91). -/
theorem decode_halt_iff {w : Int} : decode w = .ok .halt ↔ 0 ≤ w ∧ w % 100 = 99 := by
  rw [decodesExactlyItsWords w .halt]
  simp [Instr.opcode, Instr.wf, Instr.modes]

/-- The run command does not start a terminated engine, and then no step is enabled. -/
theorem runUntilOutputOrHalt_of_terminated {s : State} (h : terminated s = true)
    (env : Nat → List PortMove) (k : Nat) : runUntilOutputOrHalt env k s = some (s, []) := by
  rw [runUntilOutputOrHalt, runCommand_of_terminated h, runLoop_stopped env k (not_enabled_of_terminated h)]

theorem report_of_halted {s : State} (h : s.status = .halted) : report s = some .halted := by
  simp [report, h]

/-- Settles O23: HALT commits without a check, and HALTED is a terminal status. -/
theorem haltOnlySetsTheStatus : Obligations.HaltOnlySetsTheStatus := by
  refine ⟨fun s => rfl, fun w hw hmod => decode_halt_iff.mpr ⟨hw, hmod⟩, fun s env k hst => ?_⟩
  have hterm : terminated s = true := terminated_iff.mpr (.inl hst)
  exact ⟨runUntilOutputOrHalt_of_terminated hterm env k, report_of_halted hst⟩

end Sys2Proof.Machine
end

