-- ==== Sys2Proof/Proofs/FirstFault.lean ====
section
/-! SUPPORT. The first failing check of an instruction is the fault it takes, and it takes no other
(60_exceptions.md R235, R236). -/

namespace Sys2Proof.Machine

/-! ### The checks an instruction makes (R236 steps 5 to 8) -/

/-- `r` makes the checks `l` in order: it is the first fault among them, and with none it answers a
state that is not FAULTED. -/
structure Makes (l : List (Option FaultCode)) (r : Except FaultCode State) : Prop where
  fault : ∀ c, firstFault l = some c → r = .error c
  pass : firstFault l = none → ∃ t, r = .ok t ∧ t.status ≠ .faulted

namespace Makes

variable {s t : State} {l : List (Option FaultCode)} {r : Except FaultCode State}

theorem nil (ht : t.status ≠ .faulted) : Makes [] (.ok t) where
  fault := by simp [firstFault]
  pass := fun _ => ⟨t, rfl, ht⟩

theorem skip (h : Makes l r) : Makes (none :: l) r where
  fault := h.fault
  pass := h.pass

/-- A computation that ends in the fault `f` or answers `v` makes the check `f`, and what follows it
the checks that follow. -/
theorem check {α : Type} {f : Option FaultCode} {v : α} {x : Except FaultCode α} {k : α → Except FaultCode State}
    (hx : x = match f with | some c => .error c | none => .ok v) (h : Makes l (k v)) :
    Makes (f :: l) (x >>= k) := by
  subst hx
  cases f with
  | some c => exact { fault := fun c' hc => by cases hc; rfl, pass := nofun }
  | none => exact h.skip

theorem value {k : Int → Except FaultCode State} (i : Nat) (m : Mode) (h : Makes l (k (srcValue s i m))) :
    Makes (slotFault s i m :: l) (value s i m >>= k) :=
  check (value_eq s i m) h

theorem dest {k : Nat → Except FaultCode State} (i : Nat) {m : Mode} (hm : m.legalDst = true)
    (h : Makes l (k (dstAddress s i m))) : Makes (slotFault s i m :: l) (dest s i m >>= k) :=
  check (dest_eq s i hm) h

theorem range {k : Int → Except FaultCode State} {v : Int} (h : Makes l (k v)) :
    Makes (rangeFault s v :: l) (checkRange s v >>= k) :=
  check (checkRange_eq s v) h

theorem capacity {k : Unit → Except FaultCode State} {a : Nat} (h : Makes l (k ())) :
    Makes (capacityFault s a :: l) (checkCapacity s a >>= k) :=
  check (checkCapacity_eq s a) h

end Makes

theorem arithmetic_makes (f : Int → Int → Int) (a b : Mode) {c : Mode} (hc : c.legalDst = true) (s : State) :
    Makes [slotFault s 0 a, slotFault s 1 b, slotFault s 2 c,
      rangeFault s (f (srcValue s 0 a) (srcValue s 1 b)), rangeFault s (s.ip + 4),
      capacityFault s (dstAddress s 2 c)] (arithmetic f a b c s) :=
  .value 0 a <| .value 1 b <| .dest 2 hc <| .range <| .range <| .capacity <| .nil (by simp)

theorem comparison_makes (f : Int → Int → Bool) (a b : Mode) {c : Mode} (hc : c.legalDst = true) (s : State) :
    Makes [slotFault s 0 a, slotFault s 1 b, slotFault s 2 c, rangeFault s (s.ip + 4),
      capacityFault s (dstAddress s 2 c)] (comparison f a b c s) :=
  .value 0 a <| .value 1 b <| .dest 2 hc <| .range <| .capacity <| .nil (by simp)

/-- Only a jump not taken checks `ip + 3` (43_jumps.md R182). -/
theorem jump_makes (taken : Int → Bool) (a b : Mode) (s : State) :
    Makes [slotFault s 0 a, slotFault s 1 b, if taken (srcValue s 0 a) then none else rangeFault s (s.ip + 3)]
      (jump taken a b s) := by
  refine .value 0 a (.value 1 b ?_)
  cases taken (srcValue s 0 a) with
  | true => exact .skip (.nil (by simp))
  | false => exact .range (.nil (by simp))

theorem statusAfterOutput_ne_faulted (s : State) : statusAfterOutput s ≠ .faulted := by
  unfold statusAfterOutput
  split <;> simp

/-- Every instruction settles what its checks answer. The port is examined after them, and whatever
it holds the engine suspends or commits (42_io.md R151, R154). -/
theorem exec_makes {i : Instr} (hwf : i.wf = true) (s : State) :
    ∃ r, exec i s = settle s r ∧ Makes (checks s i) r := by
  cases i with
  | add a b c => exact ⟨_, rfl, arithmetic_makes (· + ·) a b hwf s⟩
  | mul a b c => exact ⟨_, rfl, arithmetic_makes (· * ·) a b hwf s⟩
  | lt a b c => exact ⟨_, rfl, comparison_makes lessThan a b hwf s⟩
  | eq a b c => exact ⟨_, rfl, comparison_makes equalTo a b hwf s⟩
  | inp a =>
    refine ⟨_, rfl, .dest 0 hwf (.range (.capacity ?_))⟩
    cases inData s with
    | none => exact .nil (by simp)
    | some v => exact .nil (by simp)
  | out a =>
    refine ⟨_, rfl, .value 0 a (.range ?_)⟩
    cases s.ports.outReady with
    | false => exact .nil (by simp)
    | true => exact .nil (statusAfterOutput_ne_faulted s)
  | jt a b =>
    have h := jump_makes (fun v => !isZero v) a b s
    exact ⟨_, rfl, by simpa [checks, isZero] using h⟩
  | jf a b =>
    have h := jump_makes (fun v => isZero v) a b s
    exact ⟨_, rfl, by simpa [checks, isZero] using h⟩
  | arb a => exact ⟨_, rfl, .value 0 a <| .range <| .range <| .nil (by simp)⟩
  | halt => exact ⟨.ok (commitHalt s), rfl, .nil (by simp)⟩

/-- Settles O25: an instruction settles its checks, and where they pass it does not end in FAULTED. -/
theorem firstFaultIsTaken : Obligations.FirstFaultIsTaken := by
  intro i s hwf
  obtain ⟨r, hexec, hr⟩ := exec_makes hwf s
  have htaken (c : FaultCode) (hc : firstFault (checks s i) = some c) : exec i s = .next (Faulted s c) := by
    rw [hexec, hr.fault c hc, ← raise_eq]
    rfl
  refine ⟨htaken, fun t _ hx ht => ?_⟩
  cases hf : firstFault (checks s i) with
  | some c => exact ⟨c, rfl, Host.Outcome.next.inj (hx.symm.trans (htaken c hf))⟩
  | none =>
    obtain ⟨u, rfl, hu⟩ := hr.pass hf
    obtain rfl : u = t := Host.Outcome.next.inj (hexec.symm.trans hx)
    exact absurd ht hu

end Sys2Proof.Machine
end

