-- ==== Sys2Proof/Proofs/FaultRecord.lean ====
section
/-! SUPPORT. The record of a fault: what a step that faults leaves, which codes the parameters rule
out, and that a record stays (60_exceptions.md R222, R229 to R231). -/

namespace Sys2Proof.Machine

/-! ### The fault entry (R230) -/

/-- A step enters FAULTED only by taking a fault. -/
theorem step_raises {s t : State} (hst : s.status ≠ .faulted) (hs : step s = .next t)
    (ht : t.status = .faulted) : ∃ c, t = raise s c := by
  rcases step_ends hs with ⟨-, rfl⟩ | ⟨-, i, he⟩
  · exact absurd ht hst
  · rcases he.status_cases with hraise | ⟨-, -, rfl⟩ | ⟨-, -, rfl⟩ | hcommit
    · exact hraise
    · simp at ht
    · simp at ht
    · exact absurd ht (ne_faulted_of_commit hcommit)

/-- Settles O26: the state such a step leaves is the fault entry, written out. -/
theorem faultEntryChangesNothingElse : Obligations.FaultEntryChangesNothingElse := by
  intro s t hst hs ht
  obtain ⟨c, rfl⟩ := step_raises hst hs ht
  exact ⟨c, raise_eq s c⟩

/-! ### The codes the parameters leave possible (R222, R229) -/

/-- `f` is no fault, or one with a code an engine with the parameters `p` can record. -/
structure Admits (p : Params) (f : Option FaultCode) : Prop where
  overflow : p.wordBits = none → f ≠ some .overflow
  capacity : p.sparseCapacity = none → f ≠ some .capacityExceeded

namespace Admits

variable {p : Params} {s : State}

theorem none : Admits p none := ⟨by simp, by simp⟩

theorem negativeAddress : Admits p (some .negativeAddress) := ⟨by simp, by simp⟩

/-- The first fault of a list is one of its faults. -/
theorem cons {f : Option FaultCode} {l : List (Option FaultCode)} (hf : Admits p f)
    (hl : Admits p (firstFault l)) : Admits p (firstFault (f :: l)) := by
  cases f with
  | some c => exact hf
  | none => exact hl

/-- Every value is a word where WORD_BITS is UNBOUNDED (00_scope.md R8). -/
theorem rangeFault (v : Int) : Admits s.params (rangeFault s v) where
  overflow hp := by simp [Machine.rangeFault, representable, hp]
  capacity _ := by simp [Machine.rangeFault]

theorem addressFault (a : Int) : Admits p (addressFault a) := by
  unfold Machine.addressFault
  split
  · exact negativeAddress
  · exact none

/-- An UNBOUNDED sparse region is never full (20_memory.md R67). -/
theorem capacityFault (a : Nat) : Admits s.params (capacityFault s a) where
  overflow _ := by simp [Machine.capacityFault]
  capacity hp := by simp [Machine.capacityFault, sparseFull, hp]

theorem effectiveFault (i : Nat) (m : Mode) : Admits s.params (effectiveFault s i m) := by
  cases m with
  | immediate => exact none
  | position => exact addressFault _
  | relative => exact (rangeFault _).cons <| (addressFault _).cons none

theorem slotFault (i : Nat) (m : Mode) : Admits s.params (slotFault s i m) :=
  (rangeFault _).cons <| (addressFault _).cons <| (effectiveFault i m).cons none

theorem decode {w : Int} {c : FaultCode} (h : decode w = .error c) : Admits p (some c) := by
  rcases decode_error_cases h with rfl | rfl | rfl | rfl <;> exact ⟨by simp, by simp⟩

theorem checks (i : Instr) : Admits s.params (firstFault (checks s i)) := by
  cases i with
  | add | mul =>
    exact (slotFault ..).cons <| (slotFault ..).cons <| (slotFault ..).cons <| (rangeFault _).cons <|
      (rangeFault _).cons <| (capacityFault _).cons none
  | lt | eq =>
    exact (slotFault ..).cons <| (slotFault ..).cons <| (slotFault ..).cons <| (rangeFault _).cons <|
      (capacityFault _).cons none
  | inp => exact (slotFault ..).cons <| (rangeFault _).cons <| (capacityFault _).cons none
  | out => exact (slotFault ..).cons <| (rangeFault _).cons none
  | jt =>
    refine (slotFault ..).cons <| (slotFault ..).cons <| cons ?_ none
    split
    · exact rangeFault _
    · exact none
  | jf =>
    refine (slotFault ..).cons <| (slotFault ..).cons <| cons ?_ none
    split
    · exact none
    · exact rangeFault _
  | arb => exact (slotFault ..).cons <| (rangeFault _).cons <| (rangeFault _).cons none
  | halt => exact none

end Admits

/-- A record a step raises is of the fetch, of the decoder, or of the first failing check. -/
theorem step_record_admitted {s t : State} {r : FaultRecord} (hf : s.fault = none) (hs : step s = .next t)
    (hr : t.fault = some r) : Admits s.params (some r.code) := by
  rcases step_cases hs with ⟨-, rfl⟩ | ⟨-, -, rfl⟩ | ⟨-, -, c, hd, rfl⟩ | ⟨he, -, i, hd, hx⟩
  · simp [hf] at hr
  · cases hr
    exact .negativeAddress
  · cases hr
    exact .decode hd
  · have ht : t.status = .faulted := (exec_ends hx).faulted_or_fault_eq.resolve_right (by simp [hf, hr])
    have hst : s.status ≠ .faulted := fun h => by simp [enabled, h] at he
    obtain ⟨c, hc, rfl⟩ := (firstFaultIsTaken i s (wf_of_decode hd)).2 t hst hx ht
    cases hr
    exact hc ▸ .checks i

/-- Settles O30: no check of an UNBOUNDED parameter fails, and no other fault has its code. -/
theorem unboundedParametersNeverFault : Obligations.UnboundedParametersNeverFault := by
  intro s t r hf hs hr
  obtain ⟨hword, hcap⟩ := step_record_admitted hf hs hr
  exact ⟨by simpa using hword, by simpa using hcap⟩

/-! ### The record stays (R231) -/

theorem runCommand_fault (s : State) : (runCommand s).fault = s.fault := by
  rcases runCommand_cases s with ⟨heq, -⟩ | ⟨heq, -⟩ <;> rw [heq]

theorem act_fault {s t : State} {m : Move} (hm : act s m = .next t) : t.fault = s.fault := by
  rcases act_next hm with ⟨-, rfl⟩ | ⟨a, v, -, rfl, -⟩ | ⟨p, -, hp⟩
  · exact runCommand_fault s
  · rfl
  · rw [(portAct_next hp).1]

/-- Settles O31: FAULTED is a terminal status, so there is no step, and no move writes the record. -/
theorem faultRecordIsPermanent : Obligations.FaultRecordIsPermanent := by
  intro s r hinv hr
  have hst : s.status = .faulted := hinv.mpr (by simp [hr])
  have hterm : terminated s = true := terminated_iff.mpr (.inr hst)
  have hne : enabled s = false := not_enabled_of_terminated hterm
  refine ⟨hst, hne, fun t hs => ?_, runCommand_of_terminated hterm, fun env k => ⟨?_, ?_⟩,
    fun m t hm => ⟨?_, ?_⟩⟩
  · simp [step_idle hne hs, hr, hst]
  · exact runUntilOutputOrHalt_of_terminated hterm env k
  · simp [report, hst, hr]
  · rw [act_fault hm, hr]
  · rw [act_keeps_terminal_status hterm hm, hst]

end Sys2Proof.Machine
end

