-- ==== Sys2Proof/Proofs/Construction.lean ====
section
/-! SUPPORT. The construction: what an engine built from an image holds, and that it meets the
invariants (70_reset_and_hazards.md R260; 10_state.md R38). -/

namespace Sys2Proof.Machine

/-- The engine of the construction, where it goes through. -/
def built (p : Params) (c : Cfg) (image : List Int) : State :=
  { State.reset with mem := Memory.ofImage image, n := image.length, cfg := c, params := p }

section
variable {p : Params} (c : Cfg) {image : List Int}

theorem newEngine_accepts (hp : paramsOk p = true) (h : ∀ v ∈ image, representable p v = true) :
    newEngine p c image = .next (built p c image) := by
  simp [newEngine, hp, List.all_eq_true.mpr h, built]

theorem newEngine_refuses (hp : paramsOk p = true) (h : ∃ v ∈ image, representable p v = false) :
    newEngine p c image = .refused .imageNotRepresentable := by
  have hall : image.all (representable p) = false := by simpa [List.all_eq_false] using h
  simp [newEngine, hp, hall]

end

/-- Element `a` of the image is the word at address `a`, and above the image every word is 0. -/
theorem read_ofImage (image : List Int) (a : Nat) : (Memory.ofImage image).read a = image[a]?.getD 0 := by
  simp [Memory.read, Memory.ofImage, lookup_imageCells]

/-- Settles O53: every field of the engine built is its reset value or an argument, and the image
either is accepted whole or is refused. -/
theorem constructionGivesTheResetValues : Obligations.ConstructionGivesTheResetValues := by
  refine fun p c image hp => ⟨fun h => ?_, newEngine_refuses c hp⟩
  exact ⟨built p c image, newEngine_accepts c hp h, rfl, rfl, rfl, rfl, rfl, rfl, rfl, rfl, rfl, read_ofImage image⟩

/-! ### The invariants of a new engine -/

section
variable {p : Params} (c : Cfg) {image : List Int}

/-- The whole image lies below N, and there are no keys. -/
theorem memoryInv_built : MemoryInv (built p c image) where
  canonical := wf_ofImage image
  keysAbove := by simp [built, Memory.ofImage]
  cellsKeyed cell hcell hn := by
    have hbelow : cell.1 < 0 + image.length := (imageCells_above hcell).2.1
    have hn : image.length ≤ cell.1 := hn
    omega
  withinCapacity := by simp [built, Memory.ofImage]

theorem rangeInv_built (hp : paramsOk p = true) (h : ∀ v ∈ image, representable p v = true) :
    RangeInv (built p c image) where
  width := hp
  ip := representable_of_zero_or_one hp (.inl rfl)
  rb := representable_of_zero_or_one hp (.inl rfl)
  cells cell hcell := h cell.2 (imageCells_above hcell).2.2
  inputs := by simp [built, State.reset]
  outData := by simp [built, State.reset]
  outputs := by simp [built, State.reset]

theorem statusInv_built : StatusInv (built p c image) :=
  .of_no_record rfl (.inl rfl) (by simp [built, State.reset])

end

/-- Settles O51: the three invariants of the engine built, each a lemma above. -/
theorem newEngineMeetsTheInvariants : Obligations.NewEngineMeetsTheInvariants := by
  intro p c image s h
  obtain ⟨hp, himage, rfl⟩ := newEngine_next h
  exact {
    memory := memoryInv_built c
    range := rangeInv_built c hp himage
    status := statusInv_built c }

end Sys2Proof.Machine
end

