-- ==== Sys2Proof/Proofs/Network.lean ====
section
/-! SUPPORT. Composed engines: the ports a network drives, what a step and a host action do to the
engines and the queues, and the networks that have no step (60_exceptions.md R245 to R247). -/

namespace Sys2Proof.Machine

namespace Network

variable {net net' : Network} {i : Nat} {e : State} {q : Queue}

/-! ### The driven ports (R245, R247) -/

theorem drive_inQueue (hq : net.inputOf i = some q) : (net.drive i e).ports.inQueue = q.items := by
  simp only [drive, hq]
  split <;> rfl

theorem drive_inClosed (hq : net.inputOf i = some q) {w : State} (hw : net.engines[q.writer]? = some w) :
    (net.drive i e).ports.inClosed = Machine.terminated w := by
  have hclosed (own : Bool) : net.closed q own = Machine.terminated w := by simp [closed, hw]
  simp only [drive, hq, hclosed]
  split <;> rfl

theorem drive_outReady (hq : net.outputOf i = some q) : (net.drive i e).ports.outReady = q.hasRoom := by
  simp [drive, hq]

/-- Only the ports are driven. -/
theorem drive_status : (net.drive i e).status = e.status := rfl

theorem hasRoom_iff : q.hasRoom = true ↔ ∀ k, q.bound = some k → q.items.length < k := by
  cases hb : q.bound <;> simp [Queue.hasRoom, hb]

/-! ### A host action and a step (R246) -/

/-- A host action is one move of the engine it names. -/
theorem hostAction_some {m : Move} (h : net.hostAction i m = some net') : ∃ e t, net.engines[i]? = some e ∧
    act e m = .next t ∧ net' = { net with engines := net.engines.set i t } := by
  unfold hostAction at h
  split at h
  · simp at h
  rename_i e he
  split at h
  · split at h
    · rename_i t ht
      exact ⟨e, t, he, ht, (Option.some.inj h).symm⟩
    · simp at h
    · simp at h
  · simp at h

/-- A step is one enabled step of the engine it names, on its driven ports, with the queue
operations of that step. -/
theorem step_some (h : net.step i = some net') : ∃ e t, net.engines[i]? = some e ∧
    Machine.enabled (net.drive i e) = true ∧ Machine.step (net.drive i e) = .next t ∧
    net' = { engines := net.engines.set i (net.keep i e t), queues := net.queues.map (·.after i t) } := by
  unfold step at h
  split at h
  · simp at h
  rename_i e he
  split at h
  · rename_i hen
    split at h
    · rename_i t ht
      exact ⟨e, t, he, hen, ht, (Option.some.inj h).symm⟩
    · simp at h
    · simp at h
  · simp at h

/-- Where engine `i` has no enabled step the network cannot take one by it. -/
theorem step_eq_none_of_not_enabled (h : net.enabled i = false) : net.step i = none := by
  cases hs : net.step i with
  | none => rfl
  | some net' =>
    obtain ⟨e, t, he, hen, -⟩ := step_some hs
    simp [enabled, he, hen] at h

/-- The engine that acted is there, so it is replaced. -/
theorem engine_set_self (he : net.engines[i]? = some e) (t : State) : (net.engines.set i t)[i]? = some t :=
  List.getElem?_set_self (List.getElem?_eq_some_iff.mp he).1

end Network

/-! ### The queue operations of a step (R245) -/

namespace Queue

variable {q : Queue} {i : Nat} {s t : State}

theorem after_items_of_untouched (hr : q.reader ≠ i ∨ t.ports.inTake = false)
    (hw : q.writer ≠ i ∨ t.ports.outPut = false) : (q.after i t).items = q.items := by
  have htake : ¬(q.reader = i ∧ t.ports.inTake = true) := by simpa [imp_iff_not_or] using hr
  have hput : ¬(q.writer = i ∧ t.ports.outPut = true) := by simpa [imp_iff_not_or] using hw
  simp [after, htake, hput]

/-- The step that gives `in_take` took the head of its input queue, and put nothing. -/
theorem items_of_take (hs : step s = .next t) (hr : q.reader = i) (htake : t.ports.inTake = true)
    (hq : s.ports.inQueue = q.items) : ∃ v, q.items = v :: (q.after i t).items := by
  rcases step_pulse_cases hs with ⟨hports, -⟩ | ⟨m, ea, v, -, -, hv, rfl⟩ | ⟨v, rfl⟩
  · simp [hports] at htake
  · have hhead : q.items = v :: q.items.tail := hq ▸ inQueue_of_inData hv
    exact ⟨v, by simpa [after, hr] using hhead⟩
  · simp at htake

/-- The step that gives `out_put` took nothing, and put the value it left in `out_data`. -/
theorem items_of_put (hs : step s = .next t) (hw : q.writer = i) (hput : t.ports.outPut = true) :
    ∃ v, t.outData = some v ∧ (q.after i t).items = q.items ++ [v] := by
  rcases step_pulse_cases hs with ⟨hports, -⟩ | ⟨m, ea, v, -, -, -, rfl⟩ | ⟨v, rfl⟩
  · simp [hports] at hput
  · simp at hput
  · exact ⟨v, rfl, by simp [after, hw]⟩

end Queue

/-- Settles O59: what an accepted host action, the driven ports and an accepted step are, each from
its lemmas above. -/
theorem networkStepMovesOnlyItsOwnValues : Obligations.NetworkStepMovesOnlyItsOwnValues := by
  refine ⟨fun net net' i m h => ?_, fun net i e => ⟨fun q hq => ?_, fun q hq => ?_⟩, fun net net' i h => ?_⟩
  · obtain ⟨e, t, he, hact, rfl⟩ := Network.hostAction_some h
    exact ⟨rfl, fun j hj => List.getElem?_set_ne hj.symm, e, t, he, hact, Network.engine_set_self he t⟩
  · exact ⟨Network.drive_inQueue hq, fun w => Network.drive_inClosed hq⟩
  · rw [Network.drive_outReady hq, Network.hasRoom_iff]
  · obtain ⟨e, t, he, hen, hstep, rfl⟩ := Network.step_some h
    refine ⟨e, t, he, hen, hstep, fun j hj => List.getElem?_set_ne hj.symm, fun f hf => ?_, by simp,
      fun k q q' hq hq' => ?_⟩
    · obtain rfl : net.keep i e t = f := Option.some.inj ((Network.engine_set_self he _).symm.trans hf)
      exact ⟨rfl, rfl, rfl, rfl, rfl, rfl⟩
    · obtain rfl : q.after i t = q' := by simpa [hq] using hq'
      exact ⟨rfl, rfl, rfl, Queue.after_items_of_untouched,
        fun hr htake hin => Queue.items_of_take hstep hr htake (Network.drive_inQueue hin),
        Queue.items_of_put hstep⟩

/-! ### Networks without a step (R247) -/

namespace Network

variable {net : Network}

theorem not_enabled_of_stuck (h : net.stuck = true) (i : Nat) : net.enabled i = false := by
  by_cases hi : i < net.engines.length
  · have hall : ∀ j < net.engines.length, net.enabled j = false := by
      simpa [stuck] using (Bool.and_eq_true_iff.mp h).1
    exact hall i hi
  · simp [enabled, List.getElem?_eq_none (Nat.not_lt.mp hi)]

/-- A halted engine stays halted whatever its ports are driven to. -/
theorem not_enabled_of_terminated (h : net.terminated = true) (i : Nat) : net.enabled i = false := by
  cases he : net.engines[i]? with
  | none => simp [enabled, he]
  | some e =>
    have hall : ∀ e ∈ net.engines, e.status = .halted := by simpa [terminated] using h
    have hst : (net.drive i e).status = .halted := drive_status.trans (hall e (List.mem_of_getElem? he))
    have hdriven : Machine.enabled (net.drive i e) = false :=
      Machine.not_enabled_of_terminated (terminated_iff.mpr (.inl hst))
    simpa [enabled, he] using hdriven

end Network

/-- Settles O60: in neither network is a step of an engine enabled. -/
theorem stuckOrTerminatedNetworkHasNoStep : Obligations.StuckOrTerminatedNetworkHasNoStep := by
  rintro net (h | h) i
  · exact Network.step_eq_none_of_not_enabled (Network.not_enabled_of_stuck h i)
  · exact Network.step_eq_none_of_not_enabled (Network.not_enabled_of_terminated h i)

end Sys2Proof.Machine
end
